-- ==== Sys2Proof/Word.lean ====
section
/-!
DEFINITION. The word types of the CHIP-8 core (spec R6, R7, R20, R22): every value is an unsigned bit
vector; nothing in this instruction set is signed.
-/

namespace Sys2Proof

/-- A u8: one memory cell, one general register, one timer, one byte of the display buffer (R20, R26, R27, R28). -/
abbrev Byte := BitVec 8

/-- A u16: the program counter, the index register, a stack slot, a key mask, an opcode (R22, R23, R25, R30, R70). -/
abbrev Word := BitVec 16

/-- A register number, the `x` or `y` field of an opcode; every value names a register (R20, R72). -/
abbrev RegIx := BitVec 4

/-- The `n` field of an opcode and the ignored nibbles (R72, R80). -/
abbrev Nibble := BitVec 4

/-- The `nnn` field of an opcode, a 12-bit address (R72, R73). -/
abbrev Addr12 := BitVec 12

end Sys2Proof
end

