-- ==== Sys2Proof/Syntax.lean ====
section
/-!
DEFINITION. The 35 instructions of the opcode table (spec R75), one constructor per row, in the order of the
rows of R75's table. The bits the decoder accepts with any value (R80) are kept in the constructor as `ign`
(and as `y` for the two shifts), so that an instruction determines its opcode word: a fault records that word
(R220, `fop`), and `encode` loses nothing.
-/

namespace Sys2Proof

/-- One instruction with its operand fields (R72). -/
inductive Instr where
  /-- 0nnn `SYS addr` (R140). -/
  | sys (nnn : Addr12)
  /-- 0iE0 `CLS` (R180); bits 11 to 8 ignored (R76). -/
  | cls (ign : Nibble)
  /-- 0iEE `RET` (R141); bits 11 to 8 ignored (R76). -/
  | ret (ign : Nibble)
  /-- 1nnn `JP addr` (R142). -/
  | jp (nnn : Addr12)
  /-- 2nnn `CALL addr` (R143). -/
  | call (nnn : Addr12)
  /-- 3xkk `SE Vx, byte` (R144). -/
  | seByte (x : RegIx) (kk : Byte)
  /-- 4xkk `SNE Vx, byte` (R145). -/
  | sneByte (x : RegIx) (kk : Byte)
  /-- 5xyi `SE Vx, Vy` (R146); the low nibble is ignored (R77). -/
  | seReg (x y : RegIx) (ign : Nibble)
  /-- 6xkk `LD Vx, byte` (R113). -/
  | ldByte (x : RegIx) (kk : Byte)
  /-- 7xkk `ADD Vx, byte` (R114). -/
  | addByte (x : RegIx) (kk : Byte)
  /-- 8xy0 `LD Vx, Vy` (R115). -/
  | ldReg (x y : RegIx)
  /-- 8xy1 `OR Vx, Vy` (R116). -/
  | orReg (x y : RegIx)
  /-- 8xy2 `AND Vx, Vy` (R117). -/
  | andReg (x y : RegIx)
  /-- 8xy3 `XOR Vx, Vy` (R118). -/
  | xorReg (x y : RegIx)
  /-- 8xy4 `ADD Vx, Vy` (R119). -/
  | addReg (x y : RegIx)
  /-- 8xy5 `SUB Vx, Vy` (R120). -/
  | subReg (x y : RegIx)
  /-- 8xy6 `SHR Vx` (R121); `y` is ignored (R78). -/
  | shr (x y : RegIx)
  /-- 8xy7 `SUBN Vx, Vy` (R122). -/
  | subnReg (x y : RegIx)
  /-- 8xyE `SHL Vx` (R123); `y` is ignored (R78). -/
  | shl (x y : RegIx)
  /-- 9xyi `SNE Vx, Vy` (R147); the low nibble is ignored (R77). -/
  | sneReg (x y : RegIx) (ign : Nibble)
  /-- Annn `LD I, addr` (R124). -/
  | ldI (nnn : Addr12)
  /-- Bnnn `JP V0, addr` (R148). -/
  | jpV0 (nnn : Addr12)
  /-- Cxkk `RND Vx, byte` (R126). -/
  | rnd (x : RegIx) (kk : Byte)
  /-- Dxyn `DRW Vx, Vy, nibble` (R181). -/
  | drw (x y : RegIx) (n : Nibble)
  /-- Ex9E `SKP Vx` (R161). -/
  | skp (x : RegIx)
  /-- ExA1 `SKNP Vx` (R162). -/
  | sknp (x : RegIx)
  /-- Fx07 `LD Vx, DT` (R164). -/
  | ldVxDt (x : RegIx)
  /-- Fx0A `LD Vx, K` (R163). -/
  | ldVxK (x : RegIx)
  /-- Fx15 `LD DT, Vx` (R165). -/
  | ldDtVx (x : RegIx)
  /-- Fx18 `LD ST, Vx` (R166). -/
  | ldStVx (x : RegIx)
  /-- Fx1E `ADD I, Vx` (R125). -/
  | addI (x : RegIx)
  /-- Fx29 `LD F, Vx` (R201). -/
  | ldF (x : RegIx)
  /-- Fx33 `LD B, Vx` (R202). -/
  | ldB (x : RegIx)
  /-- Fx55 `LD [I], Vx` (R203). -/
  | storeRegs (x : RegIx)
  /-- Fx65 `LD Vx, [I]` (R204). -/
  | loadRegs (x : RegIx)
  deriving DecidableEq, Repr

end Sys2Proof
end

