-- ==== Sys2Proof/WellFormed.lean ====
section
/-!
DEFINITION. Which instructions have a word of their own. Field widths are in the types, so the one check left
is that the operand of `SYS` is not a `CLS` or `RET` word: row 1 of the table overlaps rows 2 and 3, which the
decoder tests first (spec R75, R76, R140).
-/

namespace Sys2Proof

/-- `SYS nnn` is an instruction only where the low byte of `nnn` is neither 0xE0 (`CLS`) nor 0xEE (`RET`)
(R76, R140: "0nnn, except the `CLS` and `RET` words"). -/
def Instr.wellFormed : Instr → Bool
  | .sys nnn => nnn.extractLsb' 0 8 != 0xE0#8 && nnn.extractLsb' 0 8 != 0xEE#8
  | _ => true

/-- Well-formed as a proposition, decidable since it is a Boolean equation. -/
abbrev WellFormed (i : Instr) : Prop := i.wellFormed = true

end Sys2Proof
end

