-- ==== Sys2Proof/Decode.lean ====
section
/-!
DEFINITION. The decoder, total on any bytes and refusing by name (spec R70 to R80), and after it the encoder,
written from the same table (R75).
-/

namespace Sys2Proof

/-- Why bytes are no instruction. -/
inductive DecodeError where
  /-- The word is one of the 9808 of R79: the machine raises UnrecognizedOpcode with it (R221). -/
  | unrecognizedOpcode (op : Word)
  /-- Fewer than two bytes: no instruction word is there (R70). The machine never decodes such a list. -/
  | truncated
  deriving DecidableEq, Repr

/-- Group 0x0: the low byte selects, `SYS` is the default (R74, R76). -/
def decodeGroup0 (op : Word) : Instr :=
  let kk := op.extractLsb' 0 8
  if kk = 0xE0#8 then .cls (op.extractLsb' 8 4)
  else if kk = 0xEE#8 then .ret (op.extractLsb' 8 4)
  else .sys (op.extractLsb' 0 12)

/-- Group 0x8: the low nibble selects among nine (R74, R78). -/
def decodeGroup8 (op : Word) : Except DecodeError Instr :=
  let x := op.extractLsb' 8 4
  let y := op.extractLsb' 4 4
  let n := op.extractLsb' 0 4
  if n = 0x0#4 then .ok (.ldReg x y)
  else if n = 0x1#4 then .ok (.orReg x y)
  else if n = 0x2#4 then .ok (.andReg x y)
  else if n = 0x3#4 then .ok (.xorReg x y)
  else if n = 0x4#4 then .ok (.addReg x y)
  else if n = 0x5#4 then .ok (.subReg x y)
  else if n = 0x6#4 then .ok (.shr x y)
  else if n = 0x7#4 then .ok (.subnReg x y)
  else if n = 0xE#4 then .ok (.shl x y)
  else .error (.unrecognizedOpcode op)

/-- Group 0xE: the low byte selects between two (R74, R78). -/
def decodeGroupE (op : Word) : Except DecodeError Instr :=
  let x := op.extractLsb' 8 4
  let kk := op.extractLsb' 0 8
  if kk = 0x9E#8 then .ok (.skp x)
  else if kk = 0xA1#8 then .ok (.sknp x)
  else .error (.unrecognizedOpcode op)

/-- Group 0xF: the low byte selects among nine (R74, R78). -/
def decodeGroupF (op : Word) : Except DecodeError Instr :=
  let x := op.extractLsb' 8 4
  let kk := op.extractLsb' 0 8
  if kk = 0x07#8 then .ok (.ldVxDt x)
  else if kk = 0x0A#8 then .ok (.ldVxK x)
  else if kk = 0x15#8 then .ok (.ldDtVx x)
  else if kk = 0x18#8 then .ok (.ldStVx x)
  else if kk = 0x1E#8 then .ok (.addI x)
  else if kk = 0x29#8 then .ok (.ldF x)
  else if kk = 0x33#8 then .ok (.ldB x)
  else if kk = 0x55#8 then .ok (.storeRegs x)
  else if kk = 0x65#8 then .ok (.loadRegs x)
  else .error (.unrecognizedOpcode op)

/-- R74's `Decode`: high nibble first; a secondary selector only in groups 0x0, 0x8, 0xE and 0xF. -/
def decodeWord (op : Word) : Except DecodeError Instr :=
  let h := op.extractLsb' 12 4
  let x := op.extractLsb' 8 4
  let y := op.extractLsb' 4 4
  let n := op.extractLsb' 0 4
  let kk := op.extractLsb' 0 8
  let nnn := op.extractLsb' 0 12
  if h = 0x0#4 then .ok (decodeGroup0 op)
  else if h = 0x1#4 then .ok (.jp nnn)
  else if h = 0x2#4 then .ok (.call nnn)
  else if h = 0x3#4 then .ok (.seByte x kk)
  else if h = 0x4#4 then .ok (.sneByte x kk)
  else if h = 0x5#4 then .ok (.seReg x y n)
  else if h = 0x6#4 then .ok (.ldByte x kk)
  else if h = 0x7#4 then .ok (.addByte x kk)
  else if h = 0x8#4 then decodeGroup8 op
  else if h = 0x9#4 then .ok (.sneReg x y n)
  else if h = 0xA#4 then .ok (.ldI nnn)
  else if h = 0xB#4 then .ok (.jpV0 nnn)
  else if h = 0xC#4 then .ok (.rnd x kk)
  else if h = 0xD#4 then .ok (.drw x y n)
  else if h = 0xE#4 then decodeGroupE op
  else decodeGroupF op

/-- The opcode word two fetched bytes make: the byte at the lower address in bits 15 to 8 (R8, R52). -/
def opcodeOfBytes (hi lo : Byte) : Word := hi ++ lo

/-- Decode the instruction at the head of a byte list and return the rest: one length, two bytes (R70). -/
def decode : List Byte → Except DecodeError (Instr × List Byte)
  | hi :: lo :: rest =>
    match decodeWord (opcodeOfBytes hi lo) with
    | .ok i => .ok (i, rest)
    | .error e => .error e
  | _ => .error .truncated

/-- The opcode word of an instruction, read off the pattern column of R75's table; an ignored field keeps its
value (R80). -/
def encode : Instr → Word
  | .sys nnn => 0x0#4 ++ nnn
  | .cls ign => 0x0#4 ++ ign ++ 0xE0#8
  | .ret ign => 0x0#4 ++ ign ++ 0xEE#8
  | .jp nnn => 0x1#4 ++ nnn
  | .call nnn => 0x2#4 ++ nnn
  | .seByte x kk => 0x3#4 ++ x ++ kk
  | .sneByte x kk => 0x4#4 ++ x ++ kk
  | .seReg x y ign => 0x5#4 ++ x ++ y ++ ign
  | .ldByte x kk => 0x6#4 ++ x ++ kk
  | .addByte x kk => 0x7#4 ++ x ++ kk
  | .ldReg x y => 0x8#4 ++ x ++ y ++ 0x0#4
  | .orReg x y => 0x8#4 ++ x ++ y ++ 0x1#4
  | .andReg x y => 0x8#4 ++ x ++ y ++ 0x2#4
  | .xorReg x y => 0x8#4 ++ x ++ y ++ 0x3#4
  | .addReg x y => 0x8#4 ++ x ++ y ++ 0x4#4
  | .subReg x y => 0x8#4 ++ x ++ y ++ 0x5#4
  | .shr x y => 0x8#4 ++ x ++ y ++ 0x6#4
  | .subnReg x y => 0x8#4 ++ x ++ y ++ 0x7#4
  | .shl x y => 0x8#4 ++ x ++ y ++ 0xE#4
  | .sneReg x y ign => 0x9#4 ++ x ++ y ++ ign
  | .ldI nnn => 0xA#4 ++ nnn
  | .jpV0 nnn => 0xB#4 ++ nnn
  | .rnd x kk => 0xC#4 ++ x ++ kk
  | .drw x y n => 0xD#4 ++ x ++ y ++ n
  | .skp x => 0xE#4 ++ x ++ 0x9E#8
  | .sknp x => 0xE#4 ++ x ++ 0xA1#8
  | .ldVxDt x => 0xF#4 ++ x ++ 0x07#8
  | .ldVxK x => 0xF#4 ++ x ++ 0x0A#8
  | .ldDtVx x => 0xF#4 ++ x ++ 0x15#8
  | .ldStVx x => 0xF#4 ++ x ++ 0x18#8
  | .addI x => 0xF#4 ++ x ++ 0x1E#8
  | .ldF x => 0xF#4 ++ x ++ 0x29#8
  | .ldB x => 0xF#4 ++ x ++ 0x33#8
  | .storeRegs x => 0xF#4 ++ x ++ 0x55#8
  | .loadRegs x => 0xF#4 ++ x ++ 0x65#8

/-- The `mask` column of R75's table. -/
def Instr.rowMask : Instr → Word
  | .sys _ => 0xF000
  | .cls _ => 0xF0FF
  | .ret _ => 0xF0FF
  | .jp _ => 0xF000
  | .call _ => 0xF000
  | .seByte _ _ => 0xF000
  | .sneByte _ _ => 0xF000
  | .seReg _ _ _ => 0xF000
  | .ldByte _ _ => 0xF000
  | .addByte _ _ => 0xF000
  | .ldReg _ _ => 0xF00F
  | .orReg _ _ => 0xF00F
  | .andReg _ _ => 0xF00F
  | .xorReg _ _ => 0xF00F
  | .addReg _ _ => 0xF00F
  | .subReg _ _ => 0xF00F
  | .shr _ _ => 0xF00F
  | .subnReg _ _ => 0xF00F
  | .shl _ _ => 0xF00F
  | .sneReg _ _ _ => 0xF000
  | .ldI _ => 0xF000
  | .jpV0 _ => 0xF000
  | .rnd _ _ => 0xF000
  | .drw _ _ _ => 0xF000
  | .skp _ => 0xF0FF
  | .sknp _ => 0xF0FF
  | .ldVxDt _ => 0xF0FF
  | .ldVxK _ => 0xF0FF
  | .ldDtVx _ => 0xF0FF
  | .ldStVx _ => 0xF0FF
  | .addI _ => 0xF0FF
  | .ldF _ => 0xF0FF
  | .ldB _ => 0xF0FF
  | .storeRegs _ => 0xF0FF
  | .loadRegs _ => 0xF0FF

/-- The `match` column of R75's table: an opcode selects a row when its bits under the mask are these. -/
def Instr.rowMatch : Instr → Word
  | .sys _ => 0x0000
  | .cls _ => 0x00E0
  | .ret _ => 0x00EE
  | .jp _ => 0x1000
  | .call _ => 0x2000
  | .seByte _ _ => 0x3000
  | .sneByte _ _ => 0x4000
  | .seReg _ _ _ => 0x5000
  | .ldByte _ _ => 0x6000
  | .addByte _ _ => 0x7000
  | .ldReg _ _ => 0x8000
  | .orReg _ _ => 0x8001
  | .andReg _ _ => 0x8002
  | .xorReg _ _ => 0x8003
  | .addReg _ _ => 0x8004
  | .subReg _ _ => 0x8005
  | .shr _ _ => 0x8006
  | .subnReg _ _ => 0x8007
  | .shl _ _ => 0x800E
  | .sneReg _ _ _ => 0x9000
  | .ldI _ => 0xA000
  | .jpV0 _ => 0xB000
  | .rnd _ _ => 0xC000
  | .drw _ _ _ => 0xD000
  | .skp _ => 0xE09E
  | .sknp _ => 0xE0A1
  | .ldVxDt _ => 0xF007
  | .ldVxK _ => 0xF00A
  | .ldDtVx _ => 0xF015
  | .ldStVx _ => 0xF018
  | .addI _ => 0xF01E
  | .ldF _ => 0xF029
  | .ldB _ => 0xF033
  | .storeRegs _ => 0xF055
  | .loadRegs _ => 0xF065

/-- The two bytes of an instruction in memory order, high byte first (R52, R70). -/
def encodeBytes (i : Instr) : List Byte :=
  [(encode i).extractLsb' 8 8, (encode i).extractLsb' 0 8]

/-- The bytes, as memory holds them, of an instruction the opcode table numbers as `w` (bit 0 the least
significant bit of the one 16-bit word); bits at and above `nbits` are zero. -/
def tableWordBytes (nbits w : Nat) : List Byte :=
  let op : Word := BitVec.ofNat 16 (w % 2 ^ nbits)
  [op.extractLsb' 8 8, op.extractLsb' 0 8]

/-- The instruction the decoder reads from a word numbered as spec/opcode_table.json numbers it. -/
def decodeTableWord (nbits w : Nat) : Option Instr :=
  match decode (tableWordBytes nbits w) with
  | .ok (i, _) => some i
  | .error _ => none

end Sys2Proof
end

