-- ==== Sys2Proof/Config.lean ====
section
/-!
DEFINITION. What the spec leaves to the implementation or the outside (spec R5, R35, 92_eei_decisions.md
"Parameters a model takes as arguments"): the default font, the two parameters of a run, the bounds of the
ROM, and the two free inputs of a cycle that no script supplies.
-/

namespace Sys2Proof

/-- Sixteen glyphs of five bytes (R29). -/
abbrev Font := Vector (Vector Byte 5) 16

/-- The parameters of a run that a cycle reads (R5). They are fixed for a run (R35): reset sets them and no
step changes them. -/
structure Params where
  /-- `CYCLE_RATE`, the `R` of R96: cycles per second, at least 60; reference value 500. -/
  cycleRate : Nat
  /-- `ADDI_WRITES_VF`, OPEN (R114, D12): whether `ADD Vx, byte` writes VF; recommended value false. -/
  addiWritesVf : Bool
  deriving DecidableEq, Repr

/-- The defaults the parameter table of 92_eei_decisions.md gives. -/
def Params.default : Params where
  cycleRate := 500
  addiWritesVf := false

/-- The least `CYCLE_RATE` the spec admits (R5: `R >= 60`). -/
def Config.minCycleRate : Nat := 60

/-- The longest ROM, 4096 - 0x200 bytes (R252). -/
def Config.maxRomLength : Nat := 3584

/-- The default of the parameter `FONT`, the customary glyphs as R29 lists them.
PRESUMED (log entry 2): the source gives no glyph bytes, so a claim that depends on a glyph's pixels names
this constant. -/
def Config.font : Font :=
  #v[#v[0xF0, 0x90, 0x90, 0x90, 0xF0], #v[0x20, 0x60, 0x20, 0x20, 0x70],
     #v[0xF0, 0x10, 0xF0, 0x80, 0xF0], #v[0xF0, 0x10, 0xF0, 0x10, 0xF0],
     #v[0x90, 0x90, 0xF0, 0x10, 0x10], #v[0xF0, 0x80, 0xF0, 0x10, 0xF0],
     #v[0xF0, 0x80, 0xF0, 0x90, 0xF0], #v[0xF0, 0x10, 0x20, 0x40, 0x40],
     #v[0xF0, 0x90, 0xF0, 0x90, 0xF0], #v[0xF0, 0x90, 0xF0, 0x10, 0xF0],
     #v[0xF0, 0x90, 0xF0, 0x90, 0x90], #v[0xE0, 0x90, 0xE0, 0x90, 0xE0],
     #v[0xF0, 0x80, 0x80, 0x80, 0xF0], #v[0xE0, 0x90, 0x90, 0x90, 0xE0],
     #v[0xF0, 0x80, 0xF0, 0x80, 0xF0], #v[0xF0, 0x80, 0xF0, 0x80, 0x80]]

/-- The key mask the host presents at a cycle whose input no script gives: a free value, under no law
(R90, R234: "the model places no constraint on the sequence of masks"; U10 "any value"). The argument is
`State.served`, so that every cycle has a mask of its own (log entry 3). -/
opaque Config.freeKeys : Nat → Word

/-- The random byte of such a cycle: a free value (R126, R235; U9 "any value"; log entry 3). -/
opaque Config.freeRnd : Nat → Byte

end Sys2Proof
end

