-- ==== Sys2Proof/Machine/State.lean ====
section
/-!
DEFINITION. The state of the CHIP-8 core: everything spec/10_state.md gives the machine, as plain data, with
the two parameters and the waiting cycle inputs beside it (model's own fields, marked); the reasons a step can
stop; and the state after reset (R36).
-/

namespace Sys2Proof.Machine

/-- Main memory as the cells that differ from what reset leaves (`Memory.unlisted`), addresses strictly
rising (R27; canonical form: `Memory.wf`). -/
abbrev Memory := List Host.Cell

/-- The display buffer: 32 rows of 8 bytes. Byte `fb[k]` of R28 is byte `k mod 8` of row `k div 8`, since
"row `y` occupies bytes `8y` to `8y+7`". -/
abbrev Frame := Vector (Vector Byte 8) 32

/-- The five causes of a fault (R9, R220 to R225). A fault is no stop of this model: `State.faultEntry` is a
next state in which the core is halted. -/
inductive Cause where
  /-- Raised by the decoder (R221). -/
  | unrecognizedOpcode
  /-- Raised by `CALL` at `sp = 16` (R222). -/
  | stackOverflow
  /-- Raised by `RET` at `sp = 0` (R223). -/
  | stackUnderflow
  /-- Raised by an access above 0x0FFF, instruction fetch included (R224). -/
  | addressOutOfRange
  /-- Raised by `SKP` and `SKNP` with `Vx > 15` (R225). -/
  | keyIndexOutOfRange
  deriving DecidableEq, Repr

/-- The two inputs the host supplies with one cycle (R90, R234, R235). -/
structure CycleInput where
  /-- `keys_in`: bit `i` is 1 when hex key `i` is down. -/
  keys : Word
  /-- `rnd_in`, used by `RND` only. -/
  rnd : Byte
  deriving DecidableEq, Repr

/-- The machine between two cycles. -/
structure State where
  /-- V0 to VF (R20); VF doubles as the flag (R21). -/
  V : Vector Byte 16
  /-- Program counter (R22). -/
  pc : Word
  /-- Index register, all 16 bits kept (R23). -/
  I : Word
  /-- Stack pointer, 0 to 16: the number of return addresses held (R24). -/
  sp : Fin 17
  /-- The return stack, apart from memory (R25). -/
  stack : Vector Word 16
  /-- Delay timer (R26). -/
  DT : Byte
  /-- Sound timer (R26). -/
  ST : Byte
  /-- Main memory, 4096 cells (R27). -/
  mem : Memory
  /-- Display buffer, 256 bytes (R28). -/
  fb : Frame
  /-- The key mask sampled in the previous cycle (R31). -/
  kprev : Word
  /-- Timer phase accumulator, 0 to `R - 1` (R32). -/
  tacc : Nat
  /-- The "display dirty" bit, set by the core and cleared by the host (R33). -/
  dirty : Bool
  /-- A fault has occurred and the core is stopped until reset (R34, R220). -/
  halted : Bool
  /-- Fault cause code, 0 for none (R220). -/
  fcause : BitVec 3
  /-- Address of the faulting instruction (R220). -/
  fpc : Word
  /-- Opcode of the faulting instruction, 0 if the fetch itself faulted (R220). -/
  fop : Word
  /-- The lowest out-of-range address, or the key index (R220). -/
  faddr : Word
  /-- MODEL'S OWN (log entry 1): the parameters of the run, fixed by reset and changed by no step (R5, R35). -/
  params : Params
  /-- MODEL'S OWN (log entry 3): the inputs the host has lined up for the coming cycles, the next one first;
  where none waits the cycle takes the free values of Config. -/
  inputs : List CycleInput
  /-- MODEL'S OWN (log entry 3): how many completed cycles have taken their inputs, the argument of the free
  values. -/
  served : Nat
  deriving DecidableEq, Repr

/-- The faults a step of this model can stop with: none. Every error the spec names (R221 to R225) has an entry
the spec describes (R229), so the step TAKES it and answers the halted next state; nobody raises a stop of this
type, which is safe: no behaviour of the hardware is cut off. -/
inductive Fault where
  deriving DecidableEq, Repr

/-- Why the model refuses. -/
inductive Refusal where
  /-- Raised by an arm of `exec` that has no meaning yet; no arm is so. Safe: the model stops. -/
  | notModelled (mnemonic : String)
  /-- Raised by `State.launch`, never by a step: a ROM longer than 3584 bytes is refused by the loader and
  the core does not start (R252, U7). Safe: the model gives no state. -/
  | romTooLong
  /-- Raised by `State.launch`, never by a step: `CYCLE_RATE` below 60 is outside the model (R5, U11). Safe:
  the model gives no state. -/
  | cycleRateBelow60
  deriving DecidableEq, Repr

/-- What a meaning or a step answers. -/
abbrev Result := Host.Outcome State Fault Refusal

/-- The state right after reset with the default parameters, the default font and an empty ROM (R36, R250):
every register, stack slot, display byte, hidden register and fault register zero, `pc = 0x0200`, memory at its
reset contents (nothing listed). A ROM comes in through `State.launch` (log entry 4). The model's own fields:
the defaults of 92_eei_decisions.md, no input lined up, none served (DESIGN CHOICE, log entries 1 and 3). -/
def State.reset : State where
  V := Vector.replicate 16 0
  pc := 0x0200
  I := 0
  sp := 0
  stack := Vector.replicate 16 0
  DT := 0
  ST := 0
  mem := []
  fb := Vector.replicate 32 (Vector.replicate 8 0)
  kprev := 0
  tacc := 0
  dirty := false
  halted := false
  fcause := 0
  fpc := 0
  fop := 0
  faddr := 0
  params := Params.default
  inputs := []
  served := 0

end Sys2Proof.Machine
end

