-- ==== Sys2Proof/Machine/Ops.lean ====
section
/-!
DEFINITION. The named operations over memory, the program counter, the return stack, the cycle's inputs and the
timers; instruction fetch; and taking a fault, once for the whole machine.
-/

namespace Sys2Proof.Machine

/-! ### Memory (R27, R50 to R57) -/

/-- Number of memory cells (R27). -/
def memSize : Nat := 4096

/-- What an address reads as while nothing has been written there: the reset contents (R27, R55), the font at
0x000 to 0x04F and zero everywhere else. -/
def Memory.unlisted (a : Nat) : Byte :=
  if h : a < 80 then (Config.font[a / 5]'(by omega))[a % 5]'(Nat.mod_lt _ (by decide)) else 0

/-- The cell at address `a` (R8 `MemRead`, behind the range test its caller has made). -/
def Memory.read (m : Memory) (a : Nat) : Byte :=
  match m with
  | [] => Memory.unlisted a
  | (b, v) :: rest => if a = b then v else Memory.read rest a

/-- Put cell `a` in front of `rest`, unless it holds what an unlisted address reads as. -/
def Memory.cons (a : Nat) (v : Byte) (rest : Memory) : Memory :=
  if v = Memory.unlisted a then rest else (a, v) :: rest

/-- Write one cell, keeping the addresses rising. -/
def Memory.insert (m : Memory) (a : Nat) (v : Byte) : Memory :=
  match m with
  | [] => Memory.cons a v []
  | (b, w) :: rest =>
    if a < b then Memory.cons a v ((b, w) :: rest)
    else if a = b then Memory.cons a v rest
    else (b, w) :: Memory.insert rest a v

/-- The cell at `a` becomes `v` (R8 `MemWrite`, behind the range test its caller has made). No cell exists at
or above 4096, so there nothing is kept; no meaning writes there. -/
def Memory.write (m : Memory) (a : Nat) (v : Byte) : Memory :=
  if a < memSize then Memory.insert m a v else m

/-- Write bytes at ascending addresses from `a` (R52, R54). -/
def Memory.writeBlock (m : Memory) (a : Nat) : List Byte → Memory
  | [] => m
  | b :: bs => Memory.writeBlock (Memory.write m a b) (a + 1) bs

/-- The `n` bytes at ascending addresses from `a` (R52, R54). -/
def Memory.readBlock (m : Memory) (a n : Nat) : List Byte :=
  (List.range n).map fun k => Memory.read m (a + k)

/-- The canonical form from address `lo` on: addresses rising, below 4096, no cell equal to what an unlisted
address reads as. -/
def Memory.wfFrom (lo : Nat) : Memory → Bool
  | [] => true
  | (a, v) :: rest =>
    decide (lo ≤ a) && decide (a < memSize) && v != Memory.unlisted a && Memory.wfFrom (a + 1) rest

/-- The canonical form of a memory. -/
def Memory.wf (m : Memory) : Bool := Memory.wfFrom 0 m

/-- The cell at address `a` of the machine's memory. -/
def State.readByte (s : State) (a : Nat) : Byte := s.mem.read a

/-- Store bytes at ascending addresses from `a`. -/
def State.storeBytes (s : State) (a : Nat) (bs : List Byte) : State :=
  { s with mem := s.mem.writeBlock a bs }

/-! ### Taking a fault (R9, R34, R220, R229, R230) -/

/-- The three-bit code of a cause (R220). -/
def Cause.code : Cause → BitVec 3
  | .unrecognizedOpcode => 1
  | .stackOverflow => 2
  | .stackUnderflow => 3
  | .addressOutOfRange => 4
  | .keyIndexOutOfRange => 5

/-- Fault entry (R229): the core halts, the cause, the address of the faulting instruction, its opcode and the
offending address or index are recorded, and `pc` is the faulting instruction's address; everything else is as
it was before the cycle. There is no handler, no frame and no mode change, and NO RETURN: "no instruction clears
`halted`", only reset leaves the halted state (R230), which is `State.launch`. -/
def State.faultEntry (s : State) (c : Cause) (pc0 op addr : Word) : State :=
  { s with pc := pc0, halted := true, fcause := c.code, fpc := pc0, fop := op, faddr := addr }

/-- Fault entry from inside the execute phase, where `pc` is already `pc0 + 2` (R92): the cycle is abandoned and
`pc` restored (R90). Every meaning raises before it writes, so nothing else is to be undone. -/
def State.raise (s : State) (c : Cause) (op addr : Word) : State :=
  s.faultEntry c (s.pc - 2) op addr

/-- The lowest address above 0x0FFF of a range that starts at `a` and runs out of memory: `max(a, 0x1000)`
(R56, R91, R224). -/
def lowestOutOfRange (a : Word) : Word := if a.toNat < memSize then 0x1000 else a

/-! ### Fetch and the program counter (R91, R92) -/

/-- Read the big-endian opcode at `pc`; where `pc > 0x0FFE` nothing is read and the answer is the lowest
out-of-range address (R8, R91). -/
def fetch (s : State) : Except Word Word :=
  if 0x0FFE < s.pc.toNat then .error (lowestOutOfRange s.pc)
  else .ok (s.readByte s.pc.toNat ++ s.readByte (s.pc.toNat + 1))

/-- "Advance PC by 2 unconditionally before execution" (R92); also the extra advance of a taken skip (R149). -/
def State.advance (s : State) : State := { s with pc := s.pc + 2 }

/-- A conditional skip: one extra advance when the condition holds (R149). -/
def State.skipIf (s : State) (cond : Bool) : State :=
  { s with pc := if cond then s.pc + 2 else s.pc }

/-- Replace the program counter (R142, R148, R149): the target is used exactly. -/
def State.jump (s : State) (target : Word) : State := { s with pc := target }

/-! ### The return stack (R24, R25) -/

/-- `stack[sp] <- v; sp <- sp + 1`, where there is room (R25, R143). -/
def State.push (s : State) (v : Word) (room : s.sp.val < 16) : State :=
  { s with stack := s.stack.set s.sp.val v room, sp := ⟨s.sp.val + 1, by omega⟩ }

/-- The value `RET` pops: `stack[sp - 1]` (R25, R141). -/
def State.top (s : State) (held : 0 < s.sp.val) : Word :=
  s.stack[s.sp.val - 1]'(by have := s.sp.isLt; omega)

/-- `sp <- sp - 1`; the slot keeps its value (R25, R141). -/
def State.pop (s : State) : State :=
  { s with sp := ⟨s.sp.val - 1, by have := s.sp.isLt; omega⟩ }

/-! ### The inputs of the cycle (R90, R97, R234, R235) -/

/-- The input of the coming cycle: the first that waits, else the free values of Config. -/
def State.input (s : State) : CycleInput :=
  match s.inputs with
  | i :: _ => i
  | [] => { keys := Config.freeKeys s.served, rnd := Config.freeRnd s.served }

/-- `K`, the cycle's one key sample (R97). -/
def State.K (s : State) : Word := s.input.keys

/-- `rnd`, the cycle's random byte (R90, R126). -/
def State.rnd (s : State) : Byte := s.input.rnd

/-- Key `k` is down in this cycle: bit `k` of `K` (R160). -/
def State.keyDown (s : State) (k : Nat) : Bool := s.K.getLsbD k

/-! ### The end of a cycle (R96, R97) -/

/-- One decrement towards zero, never below (R26, R96). -/
def timerDecrement (t : Byte) : Byte := if t = 0 then 0 else t - 1

/-- `TimerTick` (R96): the accumulator gains 60; when it reaches `R` it loses `R` and both timers step. -/
def State.timerTick (s : State) : State :=
  if s.params.cycleRate ≤ s.tacc + 60 then
    { s with tacc := s.tacc + 60 - s.params.cycleRate, DT := timerDecrement s.DT, ST := timerDecrement s.ST }
  else { s with tacc := s.tacc + 60 }

/-- `kprev <- K` (R97), and the cycle's input is used up. -/
def State.sampleKeys (s : State) : State :=
  { s with kprev := s.K, inputs := s.inputs.tail, served := s.served + 1 }

/-- What every completed cycle does after its instruction (R90, R96, R97). -/
def State.endCycle (s : State) : State := s.timerTick.sampleKeys

/-! ### Placing a word where the next fetch reads -/

/-- Store an instruction's bytes at the program counter (for `State.withFetchWord`). -/
def State.placeAtPc (s : State) (bs : List Byte) : State := s.storeBytes s.pc.toNat bs

end Sys2Proof.Machine
end

