-- ==== Sys2Proof/Machine/Operands.lean ====
section
/-!
DEFINITION. The operand forms (spec R72, R73, R200): a general register read and written through the one
accessor each, groups of registers, the zero-extended immediate, memory at `I` behind its range check, and a
register that holds a key index.
-/

namespace Sys2Proof.Machine

/-- `V[x]` (R7, R20): every 4-bit number names a register. -/
def State.reg (s : State) (x : RegIx) : Byte := s.V[x.toNat]'x.isLt

/-- `V[x] <- v` (R7, R20). -/
def State.setReg (s : State) (x : RegIx) (v : Byte) : State := { s with V := s.V.set x.toNat v x.isLt }

/-- The number of VF, the flag register (R21). -/
def VF : RegIx := 15

/-- The values of V0 to V(n-1), in order (R203). -/
def State.regBlock (s : State) (n : Nat) : List Byte :=
  (List.range n).map fun k => s.reg (BitVec.ofNat 4 k)

/-- `V[k] <- b` for the bytes of a list, `k` rising from `k0` (R204). -/
def State.setRegBlock (s : State) (k0 : Nat) : List Byte → State
  | [] => s
  | b :: bs => (s.setReg (BitVec.ofNat 4 k0) b).setRegBlock (k0 + 1) bs

/-- `zext_16(nnn)` (R73). -/
def addrOperand (nnn : Addr12) : Word := nnn.setWidth 16

/-- `zext_16(V[x])` (R125, R148). -/
def State.regAsWord (s : State) (x : RegIx) : Word := (s.reg x).setWidth 16

/-- The effective address `I + k`, formed as a natural number with no wrap and no masking (R51, R200). -/
def State.ea (s : State) (k : Nat) : Nat := s.I.toNat + k

/-- The `len` bytes from `I` lie in memory; with `len = 0` no address is formed (R56). -/
def State.rangeOk (s : State) (len : Nat) : Bool := decide (len = 0 ∨ s.I.toNat + len - 1 ≤ 0x0FFF)

/-- The range test of R56, made once before any effect: run the body if the `len` bytes at `I` are all in
memory, else raise AddressOutOfRange with the lowest offending address, `max(I, 0x1000)`, and nothing else. -/
def State.withRange (s : State) (len : Nat) (op : Word) (body : Result) : Result :=
  if s.rangeOk len then body else .next (s.raise .addressOutOfRange op (lowestOutOfRange s.I))

/-- The key index in `Vx` is the full 8-bit value; above 15 it is out of range: raise KeyIndexOutOfRange with
the index and nothing else (R160, R225), else run the body on it. -/
def State.withKeyIndex (s : State) (x : RegIx) (op : Word) (body : Nat → Result) : Result :=
  if 15 < (s.reg x).toNat then .next (s.raise .keyIndexOutOfRange op (s.regAsWord x))
  else body (s.reg x).toNat

end Sys2Proof.Machine
end

