-- ==== Sys2Proof/Machine/Flags.lean ====
section
/-!
DEFINITION. The arithmetic laws with their flags (spec R110 to R112) and the one way a flag is written: into VF,
as 0x00 or 0x01, as the last write of the instruction (R21, D11).
-/

namespace Sys2Proof.Machine

/-- `b ? 1 : 0` as a byte (R6, R21: "each writing exactly 0x00 or 0x01"). -/
def flagByte (b : Bool) : Byte := if b then 1 else 0

/-- `Add8(a, b)`: the sum modulo 256, and 1 iff the natural sum is at least 256 (R110). -/
def add8 (a b : Byte) : Byte × Byte := (a + b, flagByte (decide (256 ≤ a.toNat + b.toNat)))

/-- `Sub8(a, b)`: the difference modulo 256, and 1 iff `a >= b`, "NOT-borrow" (R111). -/
def sub8 (a b : Byte) : Byte × Byte := (a - b, flagByte (decide (b.toNat ≤ a.toNat)))

/-- `Add16(a, b)`: the sum modulo 65536, and 1 iff the natural sum is at least 65536 (R112). -/
def add16 (a b : Word) : Word × Byte := (a + b, flagByte (decide (65536 ≤ a.toNat + b.toNat)))

/-- Write the flag: `V[15] <- c` (R21). -/
def State.setFlag (s : State) (c : Byte) : State := s.setReg VF c

/-- Write a result and then the flag, so that with `x = 15` VF ends as the flag (R21, D11). -/
def State.setRegFlag (s : State) (x : RegIx) (rc : Byte × Byte) : State := (s.setReg x rc.1).setFlag rc.2

end Sys2Proof.Machine
end

