-- ==== Sys2Proof/Machine/Arithmetic.lean ====
section
/-!
DEFINITION. Register load, logic, arithmetic, shift and random instructions (spec 41_arithmetic.md, R110 to
R126). Operands are read before anything is written; a flag is written last (R21). None can fault.
-/

namespace Sys2Proof.Machine

/-- `LD Vx, byte` (R113). -/
def execLdByte (x : RegIx) (kk : Byte) (s : State) : Result := .next (s.setReg x kk)

/-- `ADD Vx, byte` (R114): the 8-bit sum; VF takes the carry only under the parameter `ADDI_WRITES_VF`. -/
def execAddByte (x : RegIx) (kk : Byte) (s : State) : Result :=
  if s.params.addiWritesVf then .next (s.setRegFlag x (add8 (s.reg x) kk))
  else .next (s.setReg x (add8 (s.reg x) kk).1)

/-- `LD Vx, Vy` (R115). -/
def execLdReg (x y : RegIx) (s : State) : Result := .next (s.setReg x (s.reg y))

/-- `OR Vx, Vy` (R116); VF is not cleared (D14). -/
def execOrReg (x y : RegIx) (s : State) : Result := .next (s.setReg x (s.reg x ||| s.reg y))

/-- `AND Vx, Vy` (R117); VF is not cleared (D14). -/
def execAndReg (x y : RegIx) (s : State) : Result := .next (s.setReg x (s.reg x &&& s.reg y))

/-- `XOR Vx, Vy` (R118); VF is not cleared (D14). -/
def execXorReg (x y : RegIx) (s : State) : Result := .next (s.setReg x (s.reg x ^^^ s.reg y))

/-- `ADD Vx, Vy` (R119). -/
def execAddReg (x y : RegIx) (s : State) : Result := .next (s.setRegFlag x (add8 (s.reg x) (s.reg y)))

/-- `SUB Vx, Vy` (R120): `Vx - Vy`, VF the NOT-borrow. -/
def execSubReg (x y : RegIx) (s : State) : Result := .next (s.setRegFlag x (sub8 (s.reg x) (s.reg y)))

/-- `SHR Vx` (R121): logical shift by one; `y` is ignored and VF is not written. -/
def execShr (x _y : RegIx) (s : State) : Result := .next (s.setReg x (s.reg x >>> 1))

/-- `SUBN Vx, Vy` (R122): `Vy - Vx`, VF the NOT-borrow. -/
def execSubnReg (x y : RegIx) (s : State) : Result := .next (s.setRegFlag x (sub8 (s.reg y) (s.reg x)))

/-- `SHL Vx` (R123): shift by one, truncated; `y` is ignored and VF is not written. -/
def execShl (x _y : RegIx) (s : State) : Result := .next (s.setReg x (s.reg x <<< 1))

/-- `LD I, addr` (R124). -/
def execLdI (nnn : Addr12) (s : State) : Result := .next { s with I := addrOperand nnn }

/-- `RND Vx, byte` (R126): `kk AND rnd`, the random byte being the cycle's free input. -/
def execRnd (x : RegIx) (kk : Byte) (s : State) : Result := .next (s.setReg x (kk &&& s.rnd))

/-- `ADD I, Vx` (R125): the 16-bit sum, not masked to 12 bits; VF the carry out of bit 15, always written. -/
def execAddI (x : RegIx) (s : State) : Result :=
  let rc := add16 s.I (s.regAsWord x)
  .next ({ s with I := rc.1 }.setFlag rc.2)

end Sys2Proof.Machine
end

