-- ==== Sys2Proof/Machine/ControlFlow.lean ====
section
/-!
DEFINITION. The control-flow instructions (spec 42_control_flow.md, R140 to R149). In every meaning `s.pc` is
already `pc0 + 2` (R92). None writes VF or touches memory.
-/

namespace Sys2Proof.Machine

/-- `SYS addr` (R140): "a documented no-op"; the operand is ignored. -/
def execSys (_nnn : Addr12) (s : State) : Result := .next s

/-- `RET` (R141): StackUnderflow on an empty stack, else pop and jump to the popped value. -/
def execRet (ign : Nibble) (s : State) : Result :=
  if h : 0 < s.sp.val then .next (s.pop.jump (s.top h))
  else .next (s.raise .stackUnderflow (encode (.ret ign)) 0)

/-- `JP addr` (R142): `pc <- zext_16(nnn)`. -/
def execJp (nnn : Addr12) (s : State) : Result := .next (s.jump (addrOperand nnn))

/-- `CALL addr` (R143): StackOverflow on a full stack, else push the post-increment `pc` and jump. -/
def execCall (nnn : Addr12) (s : State) : Result :=
  if h : s.sp.val < 16 then .next ((s.push s.pc h).jump (addrOperand nnn))
  else .next (s.raise .stackOverflow (encode (.call nnn)) 0)

/-- `SE Vx, byte` (R144). -/
def execSeByte (x : RegIx) (kk : Byte) (s : State) : Result := .next (s.skipIf (s.reg x == kk))

/-- `SNE Vx, byte` (R145). -/
def execSneByte (x : RegIx) (kk : Byte) (s : State) : Result := .next (s.skipIf (s.reg x != kk))

/-- `SE Vx, Vy` (R146); the low nibble is ignored (R77). -/
def execSeReg (x y : RegIx) (_ign : Nibble) (s : State) : Result := .next (s.skipIf (s.reg x == s.reg y))

/-- `SNE Vx, Vy` (R147); the low nibble is ignored (R77). -/
def execSneReg (x y : RegIx) (_ign : Nibble) (s : State) : Result := .next (s.skipIf (s.reg x != s.reg y))

/-- `JP V0, addr` (R148): `pc <- zext_16(nnn) + zext_16(V0)`, not reduced to 12 bits. -/
def execJpV0 (nnn : Addr12) (s : State) : Result := .next (s.jump (addrOperand nnn + s.regAsWord 0))

end Sys2Proof.Machine
end

