-- ==== Sys2Proof/Machine/Blitter.lean ====
section
/-!
DEFINITION. The display buffer's two operations, clear and draw (spec 44_display.md): the pixel form of R182,
which is the definition and which `DRW` uses, and the byte form of R185, which the spec says is equal to it.
-/

namespace Sys2Proof.Machine

/-- A byte with bit `i` set to `b` and every other bit kept. -/
def setBit (v : Byte) (i : Nat) (b : Bool) : Byte :=
  (v &&& ~~~((1 : Byte) <<< i)) ||| (if b then (1 : Byte) <<< i else 0)

/-- `fb[k]`, byte `k` of the buffer (R28). -/
def Frame.byte (f : Frame) (k : Fin 256) : Byte :=
  (f[k.val / 8]'(by omega))[k.val % 8]'(Nat.mod_lt _ (by decide))

/-- `fb[k] <- v` (R28). -/
def Frame.setByte (f : Frame) (k : Fin 256) (v : Byte) : Frame :=
  f.set (k.val / 8) ((f[k.val / 8]'(by omega)).set (k.val % 8) v (Nat.mod_lt _ (by decide))) (by omega)

/-- The byte that holds pixel `(px, py)`: `(px div 8) + py*8` (R10). -/
def pixelByte (px : Fin 64) (py : Fin 32) : Fin 256 := ⟨px.val / 8 + py.val * 8, by omega⟩

/-- `pixel(px, py)`: bit `7 - (px mod 8)` of its byte (R10). -/
def Frame.pixel (f : Frame) (px : Fin 64) (py : Fin 32) : Bool :=
  (f.byte (pixelByte px py)).getLsbD (7 - px.val % 8)

/-- `pixel(px, py) <- b`: "writes that bit and no other" (R10). -/
def Frame.setPixel (f : Frame) (px : Fin 64) (py : Fin 32) (b : Bool) : Frame :=
  f.setByte (pixelByte px py) (setBit (f.byte (pixelByte px py)) (7 - px.val % 8) b)

/-- `clear()` zeroes all pixels (R180). -/
def Frame.clear : Frame := Vector.replicate 32 (Vector.replicate 8 0)

/-- The buffer and the collision bit while a draw runs (R182). -/
structure Blit where
  /-- The buffer so far. -/
  fb : Frame
  /-- A lit pixel has been turned off. -/
  coll : Bool
  deriving DecidableEq, Repr

/-- A sprite bit of 1 on pixel `(px, py)`: toggle it, and note a lit pixel turned off (R182, R183). -/
def Blit.toggle (b : Blit) (px : Fin 64) (py : Fin 32) : Blit :=
  { fb := b.fb.setPixel px py (!b.fb.pixel px py), coll := b.coll || b.fb.pixel px py }

/-- Column `(x0 + j) mod 64`: the horizontal wrap within the row (R182, R184). -/
def spriteColumn (x0 : Fin 64) (j : Nat) : Fin 64 := ⟨(x0.val + j) % 64, Nat.mod_lt _ (by decide)⟩

/-- One sprite byte on row `py`, bit 7 leftmost (R182). -/
def Blit.row (b : Blit) (x0 : Fin 64) (py : Fin 32) (sprite : Byte) : Blit :=
  (List.range 8).foldl
    (fun acc j => if sprite.getLsbD (7 - j) then acc.toggle (spriteColumn x0 j) py else acc) b

/-- The sprite's rows downwards from row `y`; a row at 32 or below the bottom edge is not drawn (R182, R184). -/
def Blit.rows (b : Blit) (x0 : Fin 64) (y : Nat) : List Byte → Blit
  | [] => b
  | sprite :: rest => (if h : y < 32 then b.row x0 ⟨y, h⟩ sprite else b).rows x0 (y + 1) rest

/-- `Draw(x0, y0, s)` (R182). -/
def Frame.draw (f : Frame) (x0 : Fin 64) (y0 : Fin 32) (sprite : List Byte) : Blit :=
  (Blit.mk f false).rows x0 y0.val sprite

/-! ### The byte form (R185) -/

/-- XOR a contribution into one byte, noting a lit bit it clears (R185). -/
def Blit.xorByte (b : Blit) (k : Fin 256) (c : Byte) : Blit :=
  { fb := b.fb.setByte k (b.fb.byte k ^^^ c), coll := b.coll || ((b.fb.byte k &&& c) != 0) }

/-- `kL` of R185. -/
def leftByte (x0 : Fin 64) (py : Fin 32) : Fin 256 := ⟨x0.val / 8 + 8 * py.val, by omega⟩

/-- `kR` of R185: the next byte of the same row, byte 7 wrapping to byte 0. -/
def rightByte (x0 : Fin 64) (py : Fin 32) : Fin 256 := ⟨(x0.val / 8 + 1) % 8 + 8 * py.val, by omega⟩

/-- One sprite byte on row `py` as two shifted contributions (R185). -/
def Blit.rowBytes (b : Blit) (x0 : Fin 64) (py : Fin 32) (sprite : Byte) : Blit :=
  let sh := x0.val % 8
  let b' := b.xorByte (leftByte x0 py) (sprite >>> sh)
  if sh = 0 then b' else b'.xorByte (rightByte x0 py) (sprite <<< (8 - sh))

/-- The rows in byte form. -/
def Blit.rowsBytes (b : Blit) (x0 : Fin 64) (y : Nat) : List Byte → Blit
  | [] => b
  | sprite :: rest => (if h : y < 32 then b.rowBytes x0 ⟨y, h⟩ sprite else b).rowsBytes x0 (y + 1) rest

/-- The draw in byte form (R185). -/
def Frame.drawBytes (f : Frame) (x0 : Fin 64) (y0 : Fin 32) (sprite : List Byte) : Blit :=
  (Blit.mk f false).rowsBytes x0 y0.val sprite

end Sys2Proof.Machine
end

