-- ==== Sys2Proof/Machine/Display.lean ====
section
/-!
DEFINITION. The display instructions (spec 44_display.md, R180, R181, R186). Both mark the display dirty
whenever they complete (R95).
-/

namespace Sys2Proof.Machine

/-- The start column, `Vx mod 64` (R181). -/
def startColumn (v : Byte) : Fin 64 := ⟨v.toNat % 64, Nat.mod_lt _ (by decide)⟩

/-- The start row, `Vy mod 32` (R181). -/
def startRow (v : Byte) : Fin 32 := ⟨v.toNat % 32, Nat.mod_lt _ (by decide)⟩

/-- `CLS` (R180); VF is not written. -/
def execCls (_ign : Nibble) (s : State) : Result := .next { s with fb := Frame.clear, dirty := true }

/-- The sprite `DRW` reads: the `n` bytes at `I` (R181). -/
def State.sprite (s : State) (n : Nibble) : List Byte := s.mem.readBlock (s.ea 0) n.toNat

/-- The draw `DRW` makes, on the coordinates read before VF is written (R181). -/
def State.drawn (s : State) (x y : RegIx) (n : Nibble) : Blit :=
  s.fb.draw (startColumn (s.reg x)) (startRow (s.reg y)) (s.sprite n)

/-- `DRW Vx, Vy, nibble` (R181): the range test over all `n` bytes, the draw, VF the collision, dirty set. -/
def execDrw (x y : RegIx) (n : Nibble) (s : State) : Result :=
  s.withRange n.toNat (encode (.drw x y n)) <|
    .next ({ s with fb := (s.drawn x y n).fb, dirty := true }.setFlag (flagByte (s.drawn x y n).coll))

end Sys2Proof.Machine
end

