-- ==== Sys2Proof/Machine/FontMemory.lean ====
section
/-!
DEFINITION. Font address, BCD and register block transfers (spec 45_font_memory.md, R200 to R204). `I` is never
modified by a memory instruction (R200).
-/

namespace Sys2Proof.Machine

/-- `LD F, Vx` (R201): `I <- (Vx AND 0x0F) * 5`, the font base being 0x000. -/
def execLdF (x : RegIx) (s : State) : Result :=
  .next { s with I := (s.regAsWord x &&& 0x000F) * 5 }

/-- The three decimal digits of a byte, hundreds first (R202). -/
def bcdDigits (v : Byte) : List Byte :=
  [BitVec.ofNat 8 (v.toNat / 100), BitVec.ofNat 8 (v.toNat / 10 % 10), BitVec.ofNat 8 (v.toNat % 10)]

/-- `LD B, Vx` (R202). -/
def execLdB (x : RegIx) (s : State) : Result :=
  s.withRange 3 (encode (.ldB x)) <| .next (s.storeBytes (s.ea 0) (bcdDigits (s.reg x)))

/-- `LD [I], Vx` (R203): V0 to Vx inclusive. -/
def execStoreRegs (x : RegIx) (s : State) : Result :=
  s.withRange (x.toNat + 1) (encode (.storeRegs x)) <|
    .next (s.storeBytes (s.ea 0) (s.regBlock (x.toNat + 1)))

/-- `LD Vx, [I]` (R204): V0 to Vx inclusive. -/
def execLoadRegs (x : RegIx) (s : State) : Result :=
  s.withRange (x.toNat + 1) (encode (.loadRegs x)) <|
    .next (s.setRegBlock 0 (s.mem.readBlock (s.ea 0) (x.toNat + 1)))

end Sys2Proof.Machine
end

