-- ==== Sys2Proof/Machine/Keyboard.lean ====
section
/-!
DEFINITION. Keyboard and timer instructions (spec 43_keyboard_timers.md, R160 to R166).
-/

namespace Sys2Proof.Machine

/-- The keys up in the previous sample and down in this one: `K AND (NOT kprev)` (R163). -/
def State.newlyDown (s : State) : Word := s.K &&& ~~~s.kprev

/-- The least `i` in 0 to 15 whose bit is set (R163); 0 for a mask with no bit set, where nothing uses it. -/
def lowestKey (m : Word) : Byte := BitVec.ofNat 8 (((List.range 16).find? fun i => m.getLsbD i).getD 0)

/-- `SKP Vx` (R161). -/
def execSkp (x : RegIx) (s : State) : Result :=
  s.withKeyIndex x (encode (.skp x)) fun k => .next (s.skipIf (s.keyDown k))

/-- `SKNP Vx` (R162). -/
def execSknp (x : RegIx) (s : State) : Result :=
  s.withKeyIndex x (encode (.sknp x)) fun k => .next (s.skipIf (!s.keyDown k))

/-- `LD Vx, K` (R163): the lowest key that went down since the previous sample goes to `Vx`; if none did, the
instruction retracts `pc` by 2, so that it is fetched again (the stall), and changes nothing else. -/
def execLdVxK (x : RegIx) (s : State) : Result :=
  .next { s with
    V := if s.newlyDown ≠ 0 then (s.setReg x (lowestKey s.newlyDown)).V else s.V
    pc := if s.newlyDown ≠ 0 then s.pc else s.pc - 2 }

/-- `LD Vx, DT` (R164). -/
def execLdVxDt (x : RegIx) (s : State) : Result := .next (s.setReg x s.DT)

/-- `LD DT, Vx` (R165). -/
def execLdDtVx (x : RegIx) (s : State) : Result := .next { s with DT := s.reg x }

/-- `LD ST, Vx` (R166). -/
def execLdStVx (x : RegIx) (s : State) : Result := .next { s with ST := s.reg x }

end Sys2Proof.Machine
end

