-- ==== Sys2Proof/Machine/Cycle.lean ====
section
/-!
DEFINITION. The fetch-decode-execute cycle (spec 40_cycle.md, R90 to R99): halted behaviour, fetch, the advance
of `pc`, decode, execute, and the end of the cycle. Its two inputs are `State.input`.
-/

namespace Sys2Proof.Machine

/-- After `Execute`: a raise has abandoned the cycle, so that there is no tick and no key history update (R90);
otherwise the cycle ends with both (R96, R97). `Execute` starts in a running core, so that a halted result is a
raise. -/
def completeCycle (t : State) : State := if t.halted then t else t.endCycle

/-- Decode and execute the fetched word, with `pc0` still in `pc` (R92 to R94). -/
def runWord (s : State) (op : Word) : Result :=
  match decodeWord op with
  | .error _ => .next (s.advance.raise .unrecognizedOpcode op 0)
  | .ok i =>
    match exec i s.advance with
    | .next t => .next (completeCycle t)
    | .fault f => .fault f
    | .refused r => .refused r

/-- `Cycle` (R90). A halted core changes nothing at all (R98). -/
def cycle (s : State) : Result :=
  if s.halted then .next s
  else
    match fetch s with
    | .error addr => .next (s.faultEntry .addressOutOfRange s.pc 0 addr)
    | .ok op => runWord s op

end Sys2Proof.Machine
end

