-- ==== Sys2Proof/Machine/Step.lean ====
section
/-!
DEFINITION. The one step of the machine, a cycle (spec R90, R99), and the placing of an instruction where the
step fetches its next one.
-/

namespace Sys2Proof.Machine

/-- One step: one cycle (R90). -/
def step (s : State) : Host.Outcome State Fault Refusal := cycle s

/-- `s` with the instruction numbered `w` in the opcode table stored at `pc`, where the next step of a running
core fetches (R91); nothing else changes. Above 0x0FFE no instruction can be placed, since none can be fetched. -/
def State.withFetchWord (s : State) (nbits w : Nat) : State := s.placeAtPc (tableWordBytes nbits w)

end Sys2Proof.Machine
end

