-- ==== Sys2Proof/Machine/Ports.lean ====
section
/-!
DEFINITION. The ports of the block and the host's moves (spec R12, R233 to R237, R250 to R252). The moves happen
between cycles only; apart from them the host writes nothing (R12, D30).
-/

namespace Sys2Proof.Machine

/-- `cycle` with its two inputs, `Cycle(keys_in, rnd_in)` (R90, R237): the host presents them and strobes. What
the host has lined up for later cycles is not touched. -/
def strobe (keys : Word) (rnd : Byte) (s : State) : Result :=
  match cycle { s with inputs := [{ keys := keys, rnd := rnd }] } with
  | .next t => .next { t with inputs := s.inputs }
  | .fault f => .fault f
  | .refused r => .refused r

/-- `dirty_clear`: `dirty <- 0` (R33, R237). -/
def State.dirtyClear (s : State) : State := { s with dirty := false }

/-- `fb_out`: the 256 bytes in the layout of R28 (R233). -/
def State.fbOut (s : State) : List Byte := (s.fb.toList.map Vector.toList).flatten

/-- `dirty_out` (R233). -/
def State.dirtyOut (s : State) : Bool := s.dirty

/-- What the host reads of the fault registers (R220, R237). -/
structure FaultPorts where
  halted : Bool
  fcause : BitVec 3
  fpc : Word
  fop : Word
  faddr : Word
  deriving DecidableEq, Repr

/-- `halted_out`, `fcause_out`, `fpc_out`, `fop_out`, `faddr_out` (R237). -/
def State.faultOut (s : State) : FaultPorts :=
  { halted := s.halted, fcause := s.fcause, fpc := s.fpc, fop := s.fop, faddr := s.faddr }

/-- The memory reset leaves: the font at 0x000, the ROM at 0x200, zero elsewhere (R27, R36, R250). -/
def resetMemory (font : Font) (rom : List Byte) : Memory :=
  (Memory.writeBlock [] 0 (font.toList.map Vector.toList).flatten).writeBlock 0x200 rom

/-- `reset` with its parameters and the ROM (R36, R237, R250 to R252): from any state, the reset state with that
memory. A ROM over 3584 bytes and a rate below 60 are refused (R252, R5). The inputs the host has lined up and
the count of those served are the outside's and stay. -/
def State.launch (s : State) (p : Params) (font : Font) (rom : List Byte) : Result :=
  if Config.maxRomLength < rom.length then .refused .romTooLong
  else if p.cycleRate < Config.minCycleRate then .refused .cycleRateBelow60
  else .next { State.reset with
    mem := resetMemory font rom, params := p, inputs := s.inputs, served := s.served }

end Sys2Proof.Machine
end

