-- ==== Sys2Proof/Safety.lean ====
section
/-!
DEFINITION. What counts as a safe run, and the terms the statements use: the word at the program counter, the
fault a cycle is due to raise, the invariants of the machine, and the sprite bit a pixel lies under.
-/

namespace Sys2Proof.Machine

/-- A run is safe as long as no fault has occurred (R230: a claim that a program runs correctly takes
`halted = 0` as part of its conclusion). -/
def State.Running (s : State) : Prop := s.halted = false

/-- The opcode at `pc`, the byte at the lower address in bits 15 to 8 (R91). -/
def State.wordAtPc (s : State) : Word := s.readByte s.pc.toNat ++ s.readByte (s.pc.toNat + 1)

/-- The illegal words as R79 lists them: group 0x8 with a low nibble 8 to D or F, group 0xE with a low byte other
than its two, group 0xF with a low byte other than its nine. -/
abbrev IllegalWord (op : Word) : Prop :=
  (op.toNat / 4096 = 0x8 ∧ (8 ≤ op.toNat % 16 ∧ op.toNat % 16 ≠ 0xE)) ∨
  (op.toNat / 4096 = 0xE ∧ op.toNat % 256 ∉ [0x9E, 0xA1]) ∨
  (op.toNat / 4096 = 0xF ∧ op.toNat % 256 ∉ [0x07, 0x0A, 0x15, 0x18, 0x1E, 0x29, 0x33, 0x55, 0x65])

/-- `max(a, 0x1000)` (R56, R91). -/
def maxWith0x1000 (a : Word) : Word := BitVec.ofNat 16 (max a.toNat 0x1000)

/-- The fault, as its code and `faddr`, that the decoded word is due to raise in this state (R221 to R225, R228):
"CALL only StackOverflow; RET only StackUnderflow; DRW, LD B, LD [I], LD Vx,[I] only AddressOutOfRange; SKP, SKNP
only KeyIndexOutOfRange; the other 27 instructions none". -/
def State.faultDue (s : State) (op : Word) : Option (BitVec 3 × Word) :=
  match decodeWord op with
  | .error _ => some (1, 0)
  | .ok (.call _) => if s.sp.val = 16 then some (2, 0) else none
  | .ok (.ret _) => if s.sp.val = 0 then some (3, 0) else none
  | .ok (.drw _ _ n) => if 0 < n.toNat ∧ 0x0FFF < s.I.toNat + n.toNat - 1 then some (4, maxWith0x1000 s.I) else none
  | .ok (.ldB _) => if 0x0FFF < s.I.toNat + 2 then some (4, maxWith0x1000 s.I) else none
  | .ok (.storeRegs x) => if 0x0FFF < s.I.toNat + x.toNat then some (4, maxWith0x1000 s.I) else none
  | .ok (.loadRegs x) => if 0x0FFF < s.I.toNat + x.toNat then some (4, maxWith0x1000 s.I) else none
  | .ok (.skp x) => if 15 < (s.reg x).toNat then some (5, (s.reg x).setWidth 16) else none
  | .ok (.sknp x) => if 15 < (s.reg x).toNat then some (5, (s.reg x).setWidth 16) else none
  | .ok _ => none

/-- The halted state a fault with this code, opcode and `faddr` leaves (R229): nothing but the fault registers
differs, and `fpc` is the address the cycle began at. -/
def State.faulted (s : State) (code : BitVec 3) (op addr : Word) : State :=
  { s with halted := true, fcause := code, fpc := s.pc, fop := op, faddr := addr }

/-! ### Invariants -/

/-- The memory is in its canonical form. -/
def State.MemCanonical (s : State) : Prop := s.mem.wf = true

/-- The timer phase is in its range, 0 to `R - 1`, with `R >= 60` (R5, R32). -/
def State.TimerPhaseOk (s : State) : Prop :=
  60 ≤ s.params.cycleRate ∧ s.tacc < s.params.cycleRate

/-- The bounds of R22: no `pc` above 0x10FE, and no return address above 0x1000. -/
def State.PcBounded (s : State) : Prop :=
  s.pc.toNat ≤ 0x10FE ∧ ∀ k : Fin 16, s.stack[k].toNat ≤ 0x1000

/-- The fault registers say what happened (R220): zero while the core runs; once it is halted, the record of the
fault that the state itself, which the fault left as it was, is due to raise. -/
def State.FaultRecordOk (s : State) : Prop :=
  if s.halted then
    s.fpc = s.pc ∧
      (if 0x0FFE < s.pc.toNat then s.fcause = 4 ∧ s.fop = 0 ∧ s.faddr = maxWith0x1000 s.pc
       else s.fop = s.wordAtPc ∧ s.faultDue s.fop = some (s.fcause, s.faddr))
  else s.fcause = 0 ∧ s.fpc = 0 ∧ s.fop = 0 ∧ s.faddr = 0

/-! ### Terms of the statements -/

/-- Two states that agree but for stack slots at `sp` and above (R25). -/
def State.AgreeBelowSp (s s' : State) : Prop :=
  s' = { s with stack := s'.stack } ∧ ∀ k : Fin 16, k.val < s.sp.val → s'.stack[k] = s.stack[k]

/-- The sprite bit that falls on pixel `(px, py)` when `sprite` is drawn at `(x0, y0)`: row `py - y0` of the
sprite, bit `7 - j` for the column offset `j = (px - x0) mod 64`; rows wrap horizontally and do not wrap
vertically (R182, R184). -/
def spriteBit (x0 : Fin 64) (y0 : Fin 32) (sprite : List Byte) (px : Fin 64) (py : Fin 32) : Bool :=
  decide (y0.val ≤ py.val) && decide ((px.val + 64 - x0.val) % 64 < 8) &&
    (match sprite[py.val - y0.val]? with
     | some b => b.getLsbD (7 - (px.val + 64 - x0.val) % 64)
     | none => false)

end Sys2Proof.Machine
end

