-- ==== Sys2Proof/Certificates/Slice0/Obligations.lean ====
section
/-!
DEFINITION. The statements for the provers, from the numbered rules of spec/. In every statement about `exec` the
state is that of the execute phase: `pc` is already the instruction's address plus 2 (R92), so that "`pc`
unchanged" is the advance by 2 and a raise or a stall puts 2 back. `t = { s with V := t.V }` says that `t` differs
from `s` in `V` at most: every other register, the stack, the timers, memory, the display and the fault registers
are as they were.
-/

open Sys2Proof Sys2Proof.Machine

/-! ### Encoding (30_encoding.md) -/

/-- Decoding the bytes of any well-formed instruction, whatever follows them, gives the instruction back with every
operand, and what follows is left (R70 to R76). The selectors are the spec's decisions D17 and D18. -/
def Obligations.DecodeInvertsEncode : Prop :=
  ∀ (i : Instr) (rest : List Byte), WellFormed i → decode (encodeBytes i ++ rest) = .ok (i, rest)

/-- A word that decodes is the word of the instruction it decodes to, and the instruction is well-formed (R74, R80).
That the ignored bits are part of it, so that no two words are one instruction, is the model's choice (DESIGN CHOICE,
log entry 7: an instruction keeps the bits its row ignores); for the spec 0x00E0 and 0x01E0 are both `CLS`. -/
def Obligations.DecodedWordReencodes : Prop :=
  ∀ (op : Word) (i : Instr), decodeWord op = .ok i → encode i = op ∧ WellFormed i

/-- The decoder refuses exactly the words of R79, by the name of unrecognized opcode and with the word itself, and
every word outside that list decodes to some instruction, so no legal word is refused under any name. (R79 is marked
derived from R74.) -/
def Obligations.UnrecognizedWordsExactly : Prop :=
  ∀ op : Word,
    (decodeWord op = .error (.unrecognizedOpcode op) ↔ IllegalWord op) ∧
    (¬ IllegalWord op → ∃ i, decodeWord op = .ok i)

/-- Words written out from the patterns of R75, at least one for each family, decode to the instruction they stand
for, and a word with a selector of no row is refused by name. -/
def Obligations.SampleWordsDecode : Prop :=
  decode [0b00000000, 0b11100000] = .ok (.cls 0, []) ∧
  decode [0b00000000, 0b11101110] = .ok (.ret 0, []) ∧
  decode [0b00100010, 0b00010000] = .ok (.call 0x210, []) ∧
  decode [0b01010011, 0b01000000] = .ok (.seReg 3 4 0, []) ∧
  decode [0b01101010, 0b00101111] = .ok (.ldByte 10 0x2F, []) ∧
  decode [0b10000001, 0b00100101] = .ok (.subReg 1 2, []) ∧
  decode [0b10000010, 0b00001110] = .ok (.shl 2 0, []) ∧
  decode [0b11000011, 0b00001111] = .ok (.rnd 3 0x0F, []) ∧
  decode [0b11010001, 0b00100011] = .ok (.drw 1 2 3, []) ∧
  decode [0b11100101, 0b10011110] = .ok (.skp 5, []) ∧
  decode [0b11110001, 0b00001010] = .ok (.ldVxK 1, []) ∧
  decode [0b11110010, 0b01010101] = .ok (.storeRegs 2, []) ∧
  decode [0b10000000, 0b00011000] = .error (.unrecognizedOpcode 0x8018)

/-- The ignored bits of `CLS`, `RET`, `SE Vx, Vy`, `SNE Vx, Vy`, `SHR` and `SHL` make no difference to what the
instruction does, for `RET` on a stack that holds something (R76, R77, R78, R80; D17, D18). -/
def Obligations.IgnoredBitsHaveNoEffect : Prop :=
  ∀ (x y a b : Nibble) (s : State),
    exec (.cls a) s = exec (.cls b) s ∧
    (s.sp.val ≠ 0 → exec (.ret a) s = exec (.ret b) s) ∧
    exec (.seReg x y a) s = exec (.seReg x y b) s ∧
    exec (.sneReg x y a) s = exec (.sneReg x y b) s ∧
    exec (.shr x a) s = exec (.shr x b) s ∧
    exec (.shl x a) s = exec (.shl x b) s

/-! ### The cycle (40_cycle.md) -/

/-- A running core whose two bytes at `pc` decode to `i` performs `i` on the state with `pc` advanced by 2; if that
raised no fault the cycle then ends with the timer tick and the key history, `State.endCycle` (R90 to R97). -/
def Obligations.StepRunsDecodedInstruction : Prop :=
  ∀ (s : State) (i : Instr), s.halted = false → s.pc.toNat ≤ 0x0FFE → decodeWord s.wordAtPc = .ok i →
    step s =
      match exec i { s with pc := s.pc + 2 } with
      | .next t => .next (if t.halted then t else t.endCycle)
      | .fault f => .fault f
      | .refused r => .refused r

/-- Every step of every state answers a next state: nothing the machine can meet is refused or left without a meaning.
That a fault is a next state too is the model's rendering of faults (DEDUCED, log entry 5, from R229 and the spec's
decision D6): the step takes it, and the next state is halted. -/
def Obligations.StepAlwaysAnswersNext : Prop :=
  ∀ s : State, ∃ t, step s = .next t

/-- Faults are exact and precise (R221 to R225, R228, R229; the mechanism is the spec's decisions D6 to D8, D10,
D16). In a running core: a fetch beyond 0x0FFE, and then whatever fault the fetched word is due to raise in this
state, each leaves exactly the old state with the fault registers set; and a cycle that is due none does not
halt. -/
def Obligations.FaultsAreExactAndPrecise : Prop :=
  ∀ s : State, s.halted = false →
    (0x0FFE < s.pc.toNat → step s = .next (s.faulted 4 0 (maxWith0x1000 s.pc))) ∧
    (s.pc.toNat ≤ 0x0FFE →
      (∀ (code : BitVec 3) (addr : Word), s.faultDue s.wordAtPc = some (code, addr) →
        step s = .next (s.faulted code s.wordAtPc addr)) ∧
      (s.faultDue s.wordAtPc = none → ∃ t, step s = .next t ∧ t.halted = false))

/-- A halted core changes nothing at all, however many cycles the host starts (R98, R230; decision D6). -/
def Obligations.HaltedCoreStaysPut : Prop :=
  ∀ (s : State) (k : Nat), s.halted = true → Sys2Proof.core.run k s = .next s

/-- What every completed cycle does beside its instruction (R96, R97; decisions D3, D4, D5): the accumulator gains 60
and loses `R` when it reaches it, the key history takes this cycle's sample, one input is used up (the model's own
queue, log entry 3), and the parameters and fault registers stay (R34, R35). -/
def Obligations.CompletedCycleBookkeeping : Prop :=
  ∀ s t : State, s.halted = false → step s = .next t → t.halted = false →
    t.tacc = (if s.params.cycleRate ≤ s.tacc + 60 then s.tacc + 60 - s.params.cycleRate else s.tacc + 60) ∧
    t.kprev = s.K ∧ t.inputs = s.inputs.tail ∧ t.served = s.served + 1 ∧ t.params = s.params ∧
    t.fcause = s.fcause ∧ t.fpc = s.fpc ∧ t.fop = s.fop ∧ t.faddr = s.faddr

/-- The timers in a completed cycle (R26, R96; decisions D3, D4): a cycle ticks when the accumulator reaches `R`, a
tick takes one from each timer and never goes below zero, the two are independent, and the tick comes after a load
of the timer by the instruction. -/
def Obligations.TimersStepOnTicksOnly : Prop :=
  ∀ s t : State, s.halted = false → step s = .next t → t.halted = false →
    t.DT.toNat =
      (match decodeWord s.wordAtPc with
       | .ok (.ldDtVx x) => (s.reg x).toNat
       | _ => s.DT.toNat) - (if s.params.cycleRate ≤ s.tacc + 60 then 1 else 0) ∧
    t.ST.toNat =
      (match decodeWord s.wordAtPc with
       | .ok (.ldStVx x) => (s.reg x).toNat
       | _ => s.ST.toNat) - (if s.params.cycleRate ≤ s.tacc + 60 then 1 else 0)

/-- The cadence over whole runs (R32, R96; decision D3): from any running state at phase 0, after `c` completed
cycles the accumulator is `60*c mod R`, and cycle `c + 1` ticks exactly when `60*(c+1) div R > 60*c div R`. -/
def Obligations.TickCadenceOverRuns : Prop :=
  ∀ (c : Nat) (s t : State), s.halted = false → s.TimerPhaseOk → s.tacc = 0 →
    Sys2Proof.core.run c s = .next t → t.halted = false →
    t.tacc = 60 * c % s.params.cycleRate ∧
    (t.params.cycleRate ≤ t.tacc + 60 ↔
      60 * c / s.params.cycleRate < 60 * (c + 1) / s.params.cycleRate)

/-! ### Who may change what (whole-machine rules) -/

/-- Memory changes only under a store, and only in the bytes the store names (R50, R57): wherever a step changes the
byte at an address, the word at `pc` is `LD B, Vx` and the address one of the three from `I`, or it is
`LD [I], Vx` and the address one of the `x + 1` from `I`. -/
def Obligations.MemoryWrittenOnlyByStores : Prop :=
  ∀ (s t : State) (a : Nat), step s = .next t → t.readByte a ≠ s.readByte a →
    (∃ x, decodeWord s.wordAtPc = .ok (.ldB x) ∧ s.I.toNat ≤ a ∧ a < s.I.toNat + 3) ∨
    (∃ x, decodeWord s.wordAtPc = .ok (.storeRegs x) ∧ s.I.toNat ≤ a ∧ a ≤ s.I.toNat + x.toNat)

/-- Who changes the special state (R23, R24, R25, R28, R33): the stack only `CALL`, the stack pointer only `CALL` and
`RET`, the display only `CLS` and `DRW`, `I` only `LD I`, `ADD I` and `LD F`; and the core never clears `dirty`. -/
def Obligations.SpecialStateHasFewWriters : Prop :=
  ∀ s t : State, step s = .next t →
    (t.stack ≠ s.stack → ∃ nnn, decodeWord s.wordAtPc = .ok (.call nnn)) ∧
    (t.sp ≠ s.sp →
      (∃ nnn, decodeWord s.wordAtPc = .ok (.call nnn)) ∨ (∃ ign, decodeWord s.wordAtPc = .ok (.ret ign))) ∧
    (t.fb ≠ s.fb →
      (∃ ign, decodeWord s.wordAtPc = .ok (.cls ign)) ∨
      (∃ x y n, decodeWord s.wordAtPc = .ok (.drw x y n))) ∧
    (t.I ≠ s.I →
      (∃ nnn, decodeWord s.wordAtPc = .ok (.ldI nnn)) ∨ (∃ x, decodeWord s.wordAtPc = .ok (.addI x)) ∨
      (∃ x, decodeWord s.wordAtPc = .ok (.ldF x))) ∧
    (s.dirty = true → t.dirty = true)

/-- VF is written only as a flag by the instructions of R21, or as an ordinary destination (R21; decisions D11, D13,
D14): wherever a step changes VF, the word at `pc` is one of the flag writers, `ADD Vx, byte` under
`ADDI_WRITES_VF`, a block load of all sixteen registers, or names register 15 as its destination. -/
def Obligations.VfHasFewWriters : Prop :=
  ∀ s t : State, step s = .next t → t.reg VF ≠ s.reg VF →
    match decodeWord s.wordAtPc with
    | .ok (.addReg _ _) | .ok (.subReg _ _) | .ok (.subnReg _ _) | .ok (.addI _) | .ok (.drw _ _ _) => True
    | .ok (.addByte x _) => s.params.addiWritesVf = true ∨ x = VF
    | .ok (.ldByte x _) | .ok (.ldReg x _) | .ok (.orReg x _) | .ok (.andReg x _) | .ok (.xorReg x _)
    | .ok (.shr x _) | .ok (.shl x _) | .ok (.rnd x _) | .ok (.ldVxDt x) | .ok (.ldVxK x)
    | .ok (.loadRegs x) => x = VF
    | _ => False

/-- The random byte reaches nothing but `RND` (R90, R126, R235): on any other word two cycles with the same keys and
different random bytes are the same. -/
def Obligations.RandomByteReachesOnlyRnd : Prop :=
  ∀ (s : State) (keys : Word) (r r' : Byte), (∀ x kk, decodeWord s.wordAtPc ≠ .ok (.rnd x kk)) →
    strobe keys r s = strobe keys r' s

/-- The key sample reaches nothing but `SKP`, `SKNP` and `LD Vx, K`, except the key history (R31, R97, R160): on any
other word two cycles with different keys differ at most in `kprev`. -/
def Obligations.KeysReachOnlyKeyInstructions : Prop :=
  ∀ (s t t' : State) (k k' : Word) (r : Byte),
    (∀ x, decodeWord s.wordAtPc ≠ .ok (.skp x) ∧ decodeWord s.wordAtPc ≠ .ok (.sknp x) ∧
      decodeWord s.wordAtPc ≠ .ok (.ldVxK x)) →
    strobe k r s = .next t → strobe k' r s = .next t' → t' = { t with kprev := t'.kprev }

/-- The previous key mask is read by `LD Vx, K` alone (R31): on any other word, two running cores that differ in
`kprev` only are the same after the step. -/
def Obligations.KprevReadOnlyByKeyWait : Prop :=
  ∀ (s t : State) (k : Word), (∀ x, decodeWord s.wordAtPc ≠ .ok (.ldVxK x)) → step s = .next t →
    t.halted = false → step { s with kprev := k } = .next t

/-- What lies on the stack at `sp` and above is never read (R24, R25): two states that agree but for those slots
step to states that agree but for those slots. -/
def Obligations.DeadStackSlotsAreUnobservable : Prop :=
  ∀ s s' t : State, s.AgreeBelowSp s' → step s = .next t → ∃ t', step s' = .next t' ∧ t.AgreeBelowSp t'

/-- Nothing in the core reads the sound timer or the dirty bit (R26, R33): with other values of them the step does
the same to everything else. -/
def Obligations.SoundTimerAndDirtyAreUnread : Prop :=
  ∀ (s t : State) (v : Byte) (d : Bool), step s = .next t →
    ∃ v' d', step { s with ST := v, dirty := d } = .next { t with ST := v', dirty := d' }

/-! ### Control flow (42_control_flow.md) -/

/-- `SYS addr` changes nothing: only the advance of `pc` and the end of the cycle happen (R140). -/
def Obligations.SysIsNoOp : Prop :=
  ∀ (nnn : Addr12) (s : State), exec (.sys nnn) s = .next s ∧
    (s.halted = false → s.pc.toNat ≤ 0x0FFE → decodeWord s.wordAtPc = .ok (.sys nnn) →
      step s = .next { s with pc := s.pc + 2 }.endCycle)

/-- `RET`: on a stack that holds something, one return address fewer, `pc` the popped one, the slot and everything
else kept; on an empty stack StackUnderflow, code 3, with its word, and nothing else changes (R24, R25, R141,
R223; the pattern's low byte is general knowledge, D26 the discipline). -/
def Obligations.RetPopsOrUnderflows : Prop :=
  ∀ (ign : Nibble) (s : State),
    (s.sp.val ≠ 0 → ∃ t, exec (.ret ign) s = .next t ∧ t.sp.val = s.sp.val - 1 ∧
      s.stack[t.sp.val]? = some t.pc ∧ t = { s with sp := t.sp, pc := t.pc } ∧
      ∀ a, t.readByte a = s.readByte a) ∧
    (s.sp.val = 0 → exec (.ret ign) s =
      .next ({ s with pc := s.pc - 2 }.faulted 3 (0x0#4 ++ ign ++ 0xEE#8) 0))

/-- `JP addr`: the word 1nnn decodes to it, and after it `pc` equals `nnn` exactly, odd or even; nothing else changes
and no fault is raised (R142). -/
def Obligations.JpSetsPcExactly : Prop :=
  ∀ nnn : Addr12, decodeWord (0x1#4 ++ nnn) = .ok (.jp nnn) ∧
    ∀ s : State, ∃ t, exec (.jp nnn) s = .next t ∧ t.pc.toNat = nnn.toNat ∧ t = { s with pc := t.pc } ∧
      ∀ a, t.readByte a = s.readByte a

/-- `CALL addr`: the word 2nnn decodes to it; with room on the stack it pushes the address of the next instruction in
slot `sp`, counts it, and `pc` equals `nnn` exactly; with a full stack StackOverflow, code 2, with its word, and
neither the stack nor `sp` changes and `pc` is the instruction's address (R143, R222). -/
def Obligations.CallPushesOrOverflows : Prop :=
  ∀ nnn : Addr12, decodeWord (0x2#4 ++ nnn) = .ok (.call nnn) ∧
    ∀ s : State,
      (s.sp.val ≠ 16 → ∃ t, exec (.call nnn) s = .next t ∧ t.pc.toNat = nnn.toNat ∧
        t.sp.val = s.sp.val + 1 ∧ t.stack[s.sp.val]? = some s.pc ∧
        (∀ k : Fin 16, k.val ≠ s.sp.val → t.stack[k] = s.stack[k]) ∧
        t = { s with stack := t.stack, sp := t.sp, pc := t.pc } ∧ ∀ a, t.readByte a = s.readByte a) ∧
      (s.sp.val = 16 → exec (.call nnn) s =
        .next ({ s with pc := s.pc - 2 }.faulted 2 (0x2#4 ++ nnn) 0))

/-- `CALL` and then `RET` restore `pc` to the post-fetch value and the depth of the stack, at every depth with room
(R141, R143: "CALL then RET from PC=p returns PC to p"). -/
def Obligations.CallThenRetReturns : Prop :=
  ∀ (nnn : Addr12) (ign : Nibble) (s : State), s.sp.val ≠ 16 →
    ∃ t u, exec (.call nnn) s = .next t ∧ exec (.ret ign) t = .next u ∧
      u = { s with stack := u.stack } ∧ ∀ k : Fin 16, k.val < s.sp.val → u.stack[k] = s.stack[k]

/-- The four conditional skips: 2 more on `pc` exactly when the comparison holds, and nothing else (R144 to R147; the
patterns are general knowledge, D18 the ignored nibble). -/
def Obligations.SkipsAdvancePcOnCondition : Prop :=
  ∀ (x y : RegIx) (kk : Byte) (ign : Nibble) (s : State),
    exec (.seByte x kk) s = .next { s with pc := if s.reg x = kk then s.pc + 2 else s.pc } ∧
    exec (.sneByte x kk) s = .next { s with pc := if s.reg x ≠ kk then s.pc + 2 else s.pc } ∧
    exec (.seReg x y ign) s = .next { s with pc := if s.reg x = s.reg y then s.pc + 2 else s.pc } ∧
    exec (.sneReg x y ign) s = .next { s with pc := if s.reg x ≠ s.reg y then s.pc + 2 else s.pc }

/-- `JP V0, addr`: `pc` is `nnn + V0` as a natural number, at most 0x10FE and not reduced to 12 bits; nothing else
changes (R148; decision D23). -/
def Obligations.JpV0AddsOffset : Prop :=
  ∀ (nnn : Addr12) (s : State), ∃ t, exec (.jpV0 nnn) s = .next t ∧
    t.pc.toNat = nnn.toNat + (s.reg 0).toNat ∧ t.pc.toNat ≤ 0x10FE ∧ t = { s with pc := t.pc } ∧
    ∀ a, t.readByte a = s.readByte a

/-! ### Loads, logic, arithmetic (41_arithmetic.md) -/

/-- The 8-bit laws: the sum modulo 256 with 1 iff the mathematical sum is at least 256, and the difference modulo 256
with 1 iff `a >= b`, with the source's examples (R110, R111). -/
def Obligations.EightBitLaws : Prop :=
  (∀ a b : Byte, (add8 a b).1.toNat = (a.toNat + b.toNat) % 256 ∧
    (add8 a b).2.toNat = if a.toNat + b.toNat ≥ 256 then 1 else 0) ∧
  (∀ a b : Byte,
    (sub8 a b).1.toNat = (if a.toNat ≥ b.toNat then a.toNat - b.toNat else a.toNat + 256 - b.toNat) ∧
    ((sub8 a b).1.toNat : Int) = ((a.toNat : Int) - b.toNat) % 256 ∧
    (sub8 a b).2.toNat = if a.toNat ≥ b.toNat then 1 else 0) ∧
  add8 0xFF 0x01 = (0x00, 1) ∧ add8 0x01 0x01 = (0x02, 0) ∧
  sub8 0x05 0x0A = (0xFB, 0) ∧ sub8 0x0A 0x05 = (0x05, 1)

/-- Loads and logic: the destination takes the immediate, the other register, or the bitwise OR, AND or XOR of the
two old values; every other register, VF among them unless it is the destination, and everything else stay (R113,
R115 to R118; these meanings are the spec's decisions D33 and D14). -/
def Obligations.LoadsAndLogicWriteDestinationOnly : Prop :=
  ∀ (x y : RegIx) (kk : Byte) (s : State),
    ∀ p ∈ [(Instr.ldByte x kk, kk), (.ldReg x y, s.reg y), (.orReg x y, s.reg x ||| s.reg y),
           (.andReg x y, s.reg x &&& s.reg y), (.xorReg x y, s.reg x ^^^ s.reg y)],
      ∃ t, exec p.1 s = .next t ∧ t.reg x = p.2 ∧ (∀ z, z ≠ x → t.reg z = s.reg z) ∧
        t = { s with V := t.V } ∧ ∀ a, t.readByte a = s.readByte a

/-- `ADD Vx, byte`: the sum modulo 256; VF takes the carry, last, exactly when the parameter `ADDI_WRITES_VF` holds,
and else is an ordinary register (R114; OPEN parameter, decision D12, log entry 1). -/
def Obligations.AddByteResult : Prop :=
  ∀ (x : RegIx) (kk : Byte) (s : State), ∃ t, exec (.addByte x kk) s = .next t ∧
    (x ≠ VF ∨ s.params.addiWritesVf = false → (t.reg x).toNat = ((s.reg x).toNat + kk.toNat) % 256) ∧
    (s.params.addiWritesVf = true →
      (t.reg VF).toNat = if 256 ≤ (s.reg x).toNat + kk.toNat then 1 else 0) ∧
    (∀ z, z ≠ x → (z ≠ VF ∨ s.params.addiWritesVf = false) → t.reg z = s.reg z) ∧
    t = { s with V := t.V } ∧ ∀ a, t.readByte a = s.readByte a

/-- `ADD Vx, Vy`: VF is 1 iff the sum of the old values is at least 256, also when `x` or `y` is 15; unless `x` is 15
the destination is the sum modulo 256; everything else stays (R119; pattern general knowledge, order D11). -/
def Obligations.AddRegResult : Prop :=
  ∀ (x y : RegIx) (s : State), ∃ t, exec (.addReg x y) s = .next t ∧
    (t.reg VF).toNat = (if 256 ≤ (s.reg x).toNat + (s.reg y).toNat then 1 else 0) ∧
    (x ≠ VF → (t.reg x).toNat = ((s.reg x).toNat + (s.reg y).toNat) % 256) ∧
    (∀ z, z ≠ x → z ≠ VF → t.reg z = s.reg z) ∧ t = { s with V := t.V } ∧ ∀ a, t.readByte a = s.readByte a

/-- `SUB Vx, Vy` is `Vx - Vy` and `SUBN Vx, Vy` is `Vy - Vx`, modulo 256; VF is 1 iff no borrow occurred, that is iff
the minuend is greater or equal, and is written last (R120, R122; operand order D31, write order D11). -/
def Obligations.SubtractResults : Prop :=
  ∀ (x y : RegIx) (s : State),
    ∀ p ∈ [(Instr.subReg x y, s.reg x, s.reg y), (.subnReg x y, s.reg y, s.reg x)],
      ∃ t, exec p.1 s = .next t ∧
        (t.reg VF).toNat = (if p.2.1.toNat ≥ p.2.2.toNat then 1 else 0) ∧
        (x ≠ VF → ((t.reg x).toNat : Int) = ((p.2.1.toNat : Int) - p.2.2.toNat) % 256) ∧
        (∀ z, z ≠ x → z ≠ VF → t.reg z = s.reg z) ∧ t = { s with V := t.V } ∧
        ∀ a, t.readByte a = s.readByte a

/-- `SHR` halves and `SHL` doubles modulo 256; neither reads `Vy`, and VF is not written unless it is the destination
(R121, R123; that VF is left alone is the spec's reading, decision D13). -/
def Obligations.ShiftResults : Prop :=
  ∀ (x y : RegIx) (s : State),
    ∀ p ∈ [(Instr.shr x y, (s.reg x).toNat / 2), (.shl x y, (s.reg x).toNat * 2 % 256)],
      ∃ t, exec p.1 s = .next t ∧ (t.reg x).toNat = p.2 ∧ (∀ z, z ≠ x → t.reg z = s.reg z) ∧
        t = { s with V := t.V } ∧ ∀ a, t.readByte a = s.readByte a

/-- `LD I, addr`: `I` is `nnn`, its upper four bits zero, and nothing else changes (R124; decision D33). -/
def Obligations.LdISetsIndex : Prop :=
  ∀ (nnn : Addr12) (s : State), ∃ t, exec (.ldI nnn) s = .next t ∧ t.I.toNat = nnn.toNat ∧
    t = { s with I := t.I } ∧ ∀ a, t.readByte a = s.readByte a

/-- `ADD I, Vx`: `I` is the sum modulo 65536, not masked to 12 bits, and VF is 1 iff the sum is at least 65536, always
written, the old VF being the addend when `x` is 15 (R125; D34, D11; pattern general knowledge). -/
def Obligations.AddIResult : Prop :=
  ∀ (x : RegIx) (s : State), ∃ t, exec (.addI x) s = .next t ∧
    t.I.toNat = (s.I.toNat + (s.reg x).toNat) % 65536 ∧
    (t.reg VF).toNat = (if s.I.toNat + (s.reg x).toNat ≥ 65536 then 1 else 0) ∧
    (∀ z, z ≠ VF → t.reg z = s.reg z) ∧ t = { s with I := t.I, V := t.V } ∧
    ∀ a, t.readByte a = s.readByte a

/-- `RND Vx, byte`: the destination is `kk AND rnd` for whatever byte the cycle is given, bit by bit; nothing else
changes (R126; the byte is a free input, decision D24). -/
def Obligations.RndMasksRandomByte : Prop :=
  ∀ (x : RegIx) (kk : Byte) (s : State), ∃ t, exec (.rnd x kk) s = .next t ∧
    (∀ k < 8, (t.reg x).getLsbD k = (kk.getLsbD k && s.rnd.getLsbD k)) ∧
    (∀ z, z ≠ x → t.reg z = s.reg z) ∧ t = { s with V := t.V } ∧ ∀ a, t.readByte a = s.readByte a

/-! ### Keyboard and timers (43_keyboard_timers.md) -/

/-- `SKP` and `SKNP`: with `Vx` in 0 to 15 the skip depends on bit `Vx` of this cycle's sample alone; with `Vx` at 16
or above KeyIndexOutOfRange, code 5, with the word and the index, and nothing else changes (R160 to R162, R225;
the fault is decision D16, the patterns general knowledge). -/
def Obligations.KeySkipsTestSampleOrFault : Prop :=
  ∀ (x : RegIx) (s : State),
    ((s.reg x).toNat ≤ 15 →
      exec (.skp x) s = .next { s with pc := if s.K.getLsbD (s.reg x).toNat then s.pc + 2 else s.pc } ∧
      exec (.sknp x) s = .next { s with pc := if s.K.getLsbD (s.reg x).toNat then s.pc else s.pc + 2 }) ∧
    (15 < (s.reg x).toNat →
      exec (.skp x) s =
        .next ({ s with pc := s.pc - 2 }.faulted 5 (0xE#4 ++ x ++ 0x9E#8) ((s.reg x).setWidth 16)) ∧
      exec (.sknp x) s =
        .next ({ s with pc := s.pc - 2 }.faulted 5 (0xE#4 ++ x ++ 0xA1#8) ((s.reg x).setWidth 16)))

/-- `LD Vx, K`, a key gone down: where `k` is the lowest key up in the previous sample and down in this one, `Vx`
takes `k`, `pc` keeps its advance and nothing else changes (R163; one sample a cycle is decision D5). -/
def Obligations.KeyWaitTakesLowestNewKey : Prop :=
  ∀ (x : RegIx) (s : State) (k : Fin 16), s.K.getLsbD k.val = true → s.kprev.getLsbD k.val = false →
    (∀ j : Fin 16, j < k → s.K.getLsbD j.val = true → s.kprev.getLsbD j.val = true) →
    ∃ t, exec (.ldVxK x) s = .next t ∧ (t.reg x).toNat = k.val ∧ (∀ z, z ≠ x → t.reg z = s.reg z) ∧
      t = { s with V := t.V } ∧ ∀ a, t.readByte a = s.readByte a

/-- `LD Vx, K`, no key gone down: the instruction puts `pc` back by 2 and changes nothing else, and the cycle leaves
`pc` where it began, with its tick and its key history done (R163, R236; decision D29). -/
def Obligations.KeyWaitStallsWithoutNewKey : Prop :=
  ∀ (x : RegIx) (s : State), (∀ k : Fin 16, s.K.getLsbD k.val = true → s.kprev.getLsbD k.val = true) →
    exec (.ldVxK x) s = .next { s with pc := s.pc - 2 } ∧
    (s.halted = false → s.pc.toNat ≤ 0x0FFE → decodeWord s.wordAtPc = .ok (.ldVxK x) →
      step s = .next s.endCycle)

/-- The timer instructions move the whole byte and change nothing else (R164 to R166; decision D33). -/
def Obligations.TimerInstructionsMoveByte : Prop :=
  ∀ (x : RegIx) (s : State),
    (∃ t, exec (.ldVxDt x) s = .next t ∧ t.reg x = s.DT ∧ (∀ z, z ≠ x → t.reg z = s.reg z) ∧
      t = { s with V := t.V } ∧ ∀ a, t.readByte a = s.readByte a) ∧
    exec (.ldDtVx x) s = .next { s with DT := s.reg x } ∧
    exec (.ldStVx x) s = .next { s with ST := s.reg x }

/-! ### Display (44_display.md) -/

/-- `CLS`: every pixel is off and `dirty` is set; nothing else changes, VF included (R180, R186; the pattern's low
byte is general knowledge). -/
def Obligations.ClsClearsEveryPixel : Prop :=
  ∀ (ign : Nibble) (s : State), ∃ t, exec (.cls ign) s = .next t ∧
    (∀ px py, t.fb.pixel px py = false) ∧ (∀ k, t.fb.byte k = 0) ∧ t.dirty = true ∧
    t = { s with fb := t.fb, dirty := t.dirty } ∧ ∀ a, t.readByte a = s.readByte a

/-- `DRW Vx, Vy, n`: if its `n` bytes are all in memory (or `n` is 0), the display is the draw of those bytes at
(`Vx mod 64`, `Vy mod 32`) by the old registers, VF is the collision, `dirty` is set and nothing else changes; else
AddressOutOfRange, code 4, and nothing is drawn (R181, R56, R224; the all-or-nothing check is decision D10). -/
def Obligations.DrwDrawsOrFaults : Prop :=
  ∀ (x y : RegIx) (n : Nibble) (s : State),
    (n.toNat = 0 ∨ s.I.toNat + n.toNat ≤ 0x1000 →
      ∃ t, exec (.drw x y n) s = .next t ∧
        (∀ x0 y0, x0.val = (s.reg x).toNat % 64 → y0.val = (s.reg y).toNat % 32 →
          t.fb = (s.fb.draw x0 y0 ((List.range n.toNat).map fun r => s.readByte (s.I.toNat + r))).fb ∧
          t.reg VF =
            if (s.fb.draw x0 y0 ((List.range n.toNat).map fun r => s.readByte (s.I.toNat + r))).coll
            then 1 else 0) ∧
        (∀ z, z ≠ VF → t.reg z = s.reg z) ∧ t.dirty = true ∧
        t = { s with V := t.V, fb := t.fb, dirty := t.dirty } ∧ ∀ a, t.readByte a = s.readByte a) ∧
    (0 < n.toNat → 0x1000 < s.I.toNat + n.toNat →
      exec (.drw x y n) s =
        .next ({ s with pc := s.pc - 2 }.faulted 4 (0xD#4 ++ x ++ y ++ n) (maxWith0x1000 s.I)))

/-- `Draw`, pixel by pixel: each pixel is XORed with the sprite bit that falls on it, where rows wrap around the
right edge within the row and are cut off at the bottom (R182, R184). -/
def Obligations.DrawXorsSpriteBits : Prop :=
  ∀ (f : Frame) (x0 : Fin 64) (y0 : Fin 32) (sprite : List Byte) (px : Fin 64) (py : Fin 32),
    (f.draw x0 y0 sprite).fb.pixel px py = (f.pixel px py ^^ spriteBit x0 y0 sprite px py)

/-- The collision is true exactly when some pixel was lit before and a sprite bit of 1 falls on it, so that the XOR
turns it off (R183). -/
def Obligations.CollisionIffLitPixelCleared : Prop :=
  ∀ (f : Frame) (x0 : Fin 64) (y0 : Fin 32) (sprite : List Byte),
    (f.draw x0 y0 sprite).coll = true ↔
      ∃ px py, f.pixel px py = true ∧ spriteBit x0 y0 sprite px py = true

/-- The byte form of the draw, two shifted contributions to two bytes of the row, is equal to the pixel form (R185,
which the spec derives from R182 and R10). -/
def Obligations.ByteFormEqualsPixelForm : Prop :=
  ∀ (f : Frame) (x0 : Fin 64) (y0 : Fin 32) (sprite : List Byte),
    f.drawBytes x0 y0 sprite = f.draw x0 y0 sprite

/-- Drawing the same sprite twice at the same place restores the buffer, and the second draw reports a collision
exactly when some pixel under a sprite bit of 1 was off at the start; from a clear buffer that is exactly when
anything was drawn at all (R183, source example S5). -/
def Obligations.DrawingTwiceCancels : Prop :=
  ∀ (f : Frame) (x0 : Fin 64) (y0 : Fin 32) (sprite : List Byte),
    ((f.draw x0 y0 sprite).fb.draw x0 y0 sprite).fb = f ∧
    (((f.draw x0 y0 sprite).fb.draw x0 y0 sprite).coll = true ↔
      ∃ px py, f.pixel px py = false ∧ spriteBit x0 y0 sprite px py = true) ∧
    (((Frame.clear.draw x0 y0 sprite).fb.draw x0 y0 sprite).coll = true ↔
      ∃ px py, spriteBit x0 y0 sprite px py = true)

/-! ### Font address, BCD, block transfers (45_font_memory.md) -/

/-- `LD F, Vx`: the word Fx29 decodes to it; `I` is five times the low nibble of `Vx`, from 0 to 75, no memory is
accessed, and nothing else changes (R201). -/
def Obligations.LdFPointsAtGlyph : Prop :=
  ∀ x : RegIx, decodeWord (0xF#4 ++ x ++ 0x29#8) = .ok (.ldF x) ∧
    ∀ s : State, ∃ t, exec (.ldF x) s = .next t ∧ t.I.toNat = (s.reg x).toNat % 16 * 5 ∧ t.I.toNat ≤ 75 ∧
      t = { s with I := t.I } ∧ ∀ a, t.readByte a = s.readByte a

/-- `LD B, Vx`: the word Fx33 decodes to it. With its three bytes in memory, in any state whose memory is canonical
(an invariant: `StepKeepsMemoryCanonical`), they read as the hundreds, tens and ones of `Vx`, every other byte reads
as before and nothing but memory changes; with `I` above 0x0FFD it is AddressOutOfRange, code 4, with `max(I,
0x1000)`, and no byte is written (R202). -/
def Obligations.LdBStoresDigitsOrFaults : Prop :=
  ∀ x : RegIx, decodeWord (0xF#4 ++ x ++ 0x33#8) = .ok (.ldB x) ∧
    ∀ s : State,
      (s.I.toNat ≤ 0x0FFD → ∃ t, exec (.ldB x) s = .next t ∧
        (s.MemCanonical →
          (t.readByte s.I.toNat).toNat = (s.reg x).toNat / 100 ∧
          (t.readByte (s.I.toNat + 1)).toNat = (s.reg x).toNat / 10 % 10 ∧
          (t.readByte (s.I.toNat + 2)).toNat = (s.reg x).toNat % 10) ∧
        (∀ a, a < s.I.toNat ∨ s.I.toNat + 3 ≤ a → t.readByte a = s.readByte a) ∧
        t = { s with mem := t.mem }) ∧
      (0x0FFD < s.I.toNat → exec (.ldB x) s =
        .next ({ s with pc := s.pc - 2 }.faulted 4 (0xF#4 ++ x ++ 0x33#8) (maxWith0x1000 s.I)))

/-- `LD [I], Vx`: the word Fx55 decodes to it. With the `x + 1` bytes in memory, in any state whose memory is
canonical, byte `I + i` reads as `Vi` for every `i` from 0 to `x`, every other byte reads as before, and nothing but
memory changes, `I` among the rest; else AddressOutOfRange, code 4, with `max(I, 0x1000)`, and no byte is written
(R203). -/
def Obligations.StoreRegsStoresPrefixOrFaults : Prop :=
  ∀ x : RegIx, decodeWord (0xF#4 ++ x ++ 0x55#8) = .ok (.storeRegs x) ∧
    ∀ s : State,
      (s.I.toNat + x.toNat ≤ 0x0FFF → ∃ t, exec (.storeRegs x) s = .next t ∧
        (s.MemCanonical → ∀ i : RegIx, i ≤ x → t.readByte (s.I.toNat + i.toNat) = s.reg i) ∧
        (∀ a, a < s.I.toNat ∨ s.I.toNat + x.toNat < a → t.readByte a = s.readByte a) ∧
        t = { s with mem := t.mem }) ∧
      (0x0FFF < s.I.toNat + x.toNat → exec (.storeRegs x) s =
        .next ({ s with pc := s.pc - 2 }.faulted 4 (0xF#4 ++ x ++ 0x55#8) (maxWith0x1000 s.I)))

/-- `LD Vx, [I]`: the word Fx65 decodes to it. With the `x + 1` bytes in memory, `Vi` is byte `I + i` for every `i`
from 0 to `x`, the registers above `Vx` and everything else stay, `I` and memory among the rest; else
AddressOutOfRange, code 4, with `max(I, 0x1000)`, and no register is written (R204). -/
def Obligations.LoadRegsLoadsPrefixOrFaults : Prop :=
  ∀ x : RegIx, decodeWord (0xF#4 ++ x ++ 0x65#8) = .ok (.loadRegs x) ∧
    ∀ s : State,
      (s.I.toNat + x.toNat ≤ 0x0FFF → ∃ t, exec (.loadRegs x) s = .next t ∧
        (∀ i : RegIx, i ≤ x → t.reg i = s.readByte (s.I.toNat + i.toNat)) ∧
        (∀ i : RegIx, x < i → t.reg i = s.reg i) ∧
        t = { s with V := t.V } ∧ ∀ a, t.readByte a = s.readByte a) ∧
      (0x0FFF < s.I.toNat + x.toNat → exec (.loadRegs x) s =
        .next ({ s with pc := s.pc - 2 }.faulted 4 (0xF#4 ++ x ++ 0x65#8) (maxWith0x1000 s.I)))

/-- A read returns the last value written to the cell, and a write leaves every other cell alone (R54, R58, which the
spec derives), in a canonical memory. The canonical form and the clause that a write keeps it are the model's own
(DEDUCED, log entry 8). -/
def Obligations.MemoryReadsLastWrite : Prop :=
  ∀ (m : Memory) (a b : Nat) (v : Byte), m.wf = true → a < 4096 →
    (m.write a v).read b = (if b = a then v else m.read b) ∧ (m.write a v).wf = true

/-! ### Invariants -/

/-- Every step keeps the canonical form of memory (the form is the model's own; the cells are R27's). -/
def Obligations.StepKeepsMemoryCanonical : Prop :=
  ∀ s t : State, s.MemCanonical → step s = .next t → t.MemCanonical

/-- Every step keeps the timer phase in its range, 0 to `R - 1`, with `R` at least 60 (R32, R5). -/
def Obligations.StepKeepsTimerPhase : Prop :=
  ∀ s t : State, s.TimerPhaseOk → step s = .next t → t.TimerPhaseOk

/-- Every step keeps the bounds of R22: no `pc` above 0x10FE, since a fetch needs `pc <= 0x0FFE`, and no return
address above 0x1000. (R22 marks the bound derived.) -/
def Obligations.StepKeepsPcBounded : Prop :=
  ∀ s t : State, s.PcBounded → step s = .next t → t.PcBounded

/-- Every step keeps the fault registers truthful (R220, R229, R230; decisions D6, D7): zero while the core runs, and
once it is halted the record of the fault that the state itself is due to raise. -/
def Obligations.StepKeepsFaultRecord : Prop :=
  ∀ s t : State, s.FaultRecordOk → step s = .next t → t.FaultRecordOk

/-- The reset state meets the four invariants. That its memory is canonical is about the model's own form (DEDUCED, log
entry 8), and that its timer phase is in range rests on the default rate 500, the model's choice at reset (DESIGN
CHOICE, log entry 1; the bound `R >= 60` is R5's); the bounds of R22 and the zero fault registers follow from R36. -/
def Obligations.ResetMeetsInvariants : Prop :=
  State.reset.MemCanonical ∧ State.reset.TimerPhaseOk ∧ State.reset.PcBounded ∧ State.reset.FaultRecordOk

/-! ### Reset (70_reset_and_hazards.md, 10_state.md) -/

/-- After a reset with a font and a ROM of at most 3584 bytes, from any state at all, halted ones included, the state
is that of R36: every register, stack slot, display byte, hidden register and fault register zero, `pc = 0x0200`, the
font at 0x000, the ROM at 0x200 and zeros everywhere else. That it holds from any state is R251 with the spec's
decision D2; that the state holds the parameters it was given is the model's choice (DESIGN CHOICE, log entry 1), and
that the memory is canonical is about the model's own form (DEDUCED, log entry 8). -/
def Obligations.LaunchLeavesResetState : Prop :=
  ∀ (s : State) (p : Params) (font : Font) (rom : List Byte), rom.length ≤ 3584 → 60 ≤ p.cycleRate →
    ∃ t, s.launch p font rom = .next t ∧
      (∀ x, t.reg x = 0) ∧ t.pc = 0x0200 ∧ t.I = 0 ∧ t.sp = 0 ∧ (∀ k : Fin 16, t.stack[k] = 0) ∧
      t.DT = 0 ∧ t.ST = 0 ∧ (∀ k, t.fb.byte k = 0) ∧ t.kprev = 0 ∧ t.tacc = 0 ∧ t.dirty = false ∧
      t.halted = false ∧ t.fcause = 0 ∧ t.fpc = 0 ∧ t.fop = 0 ∧ t.faddr = 0 ∧ t.params = p ∧
      (∀ (d : Fin 16) (j : Fin 5), t.readByte (5 * d.val + j.val) = font[d][j]) ∧
      (∀ a, 0x050 ≤ a → a < 0x200 → t.readByte a = 0) ∧
      (∀ i (h : i < rom.length), t.readByte (0x200 + i) = rom[i]) ∧
      (∀ a, 0x200 + rom.length ≤ a → a < 4096 → t.readByte a = 0) ∧
      t.MemCanonical

/-- A ROM of more than 3584 bytes does not start the core (R252, U7), nor does a cycle rate below 60 (R5, U11). -/
def Obligations.LaunchRefusesBadParameters : Prop :=
  ∀ (s : State) (p : Params) (font : Font) (rom : List Byte),
    (3584 < rom.length → s.launch p font rom = .refused .romTooLong) ∧
    (rom.length ≤ 3584 → p.cycleRate < 60 → s.launch p font rom = .refused .cycleRateBelow60)

/-- The reset state is a reset with the default parameters, the default font and an empty ROM (R36, R250). -/
def Obligations.ResetIsDefaultLaunch : Prop :=
  State.reset.launch Params.default Config.font [] = .next State.reset
end

