-- ==== Sys2Proof/Laws/Blitter.lean ====
section
/-!
SUPPORT. The laws of the display buffer: a byte and a pixel read after a write, and that the buffer is its bytes.
-/

namespace Sys2Proof.Machine

/-- Writing a bit of a byte sets that bit and keeps the others (R10). -/
theorem getLsbD_setBit (v : Byte) (i k : Nat) (b : Bool) (hi : i < 8) (hk : k < 8) :
    (setBit v i b).getLsbD k = if k = i then b else v.getLsbD k := by
  unfold setBit
  by_cases h : k = i
  · subst h
    cases b <;> simp [hk]
  · have hne : k < i ∨ ¬ k - i = 0 := by omega
    cases b <;> rcases hne with h' | h' <;> simp [h, h', hk]

/-- A byte of the buffer read after a byte write (R28). -/
theorem Frame.byte_setByte (f : Frame) (k j : Fin 256) (v : Byte) :
    (f.setByte k v).byte j = if j = k then v else f.byte j := by
  unfold Frame.byte Frame.setByte
  rw [Vector.getElem_set]
  by_cases hr : k.val / 8 = j.val / 8
  · simp only [hr, if_true]
    rw [Vector.getElem_set]
    by_cases hc : k.val % 8 = j.val % 8
    · rw [if_pos hc, if_pos (Fin.ext (by omega))]
    · have hjk : j ≠ k := fun e => hc (by rw [e])
      simp only [hc, hjk, if_false]
  · have hjk : j ≠ k := fun e => hr (by rw [e])
    simp only [hr, hjk, if_false]

/-- Two buffers with the same 256 bytes are one buffer. -/
theorem Frame.ext_byte {f g : Frame} (h : ∀ k, f.byte k = g.byte k) : f = g := by
  refine Vector.ext fun r hr => Vector.ext fun c hc => ?_
  have e := h ⟨8 * r + c, by omega⟩
  unfold Frame.byte at e
  have h1 : (8 * r + c) / 8 = r := by omega
  have h2 : (8 * r + c) % 8 = c := by omega
  simpa only [h1, h2] using e

/-- Two buffers with the same pixels are one buffer (R10, R28). -/
theorem Frame.ext_pixel {f g : Frame} (h : ∀ px py, f.pixel px py = g.pixel px py) : f = g := by
  refine Frame.ext_byte fun k => BitVec.eq_of_getLsbD_eq fun i hi => ?_
  have e := h ⟨8 * (k.val % 8) + (7 - i), by omega⟩ ⟨k.val / 8, by omega⟩
  unfold Frame.pixel at e
  have hk : pixelByte ⟨8 * (k.val % 8) + (7 - i), by omega⟩ ⟨k.val / 8, by omega⟩ = k := by
    refine Fin.ext ?_
    show (8 * (k.val % 8) + (7 - i)) / 8 + k.val / 8 * 8 = k.val
    omega
  have hb : 7 - (8 * (k.val % 8) + (7 - i)) % 8 = i := by omega
  rw [hk] at e
  simpa only [hb] using e

/-- A pixel read after a pixel write: "writes that bit and no other" (R10). -/
theorem Frame.pixel_setPixel (f : Frame) (px qx : Fin 64) (py qy : Fin 32) (b : Bool) :
    (f.setPixel px py b).pixel qx qy = if qx = px ∧ qy = py then b else f.pixel qx qy := by
  unfold Frame.setPixel Frame.pixel
  rw [Frame.byte_setByte]
  by_cases hk : pixelByte qx qy = pixelByte px py
  · rw [if_pos hk, getLsbD_setBit _ _ _ _ (by omega) (by omega)]
    have hv : qx.val / 8 + qy.val * 8 = px.val / 8 + py.val * 8 := congrArg Fin.val hk
    by_cases hb : 7 - qx.val % 8 = 7 - px.val % 8
    · rw [if_pos hb, if_pos ⟨Fin.ext (by omega), Fin.ext (by omega)⟩]
    · rw [if_neg hb, if_neg (fun e => hb (by rw [e.1])), hk]
  · rw [if_neg hk, if_neg (fun e => hk (by rw [e.1, e.2]))]

/-- The cleared buffer's bytes are zero (R180). -/
theorem Frame.byte_clear (k : Fin 256) : Frame.clear.byte k = 0 := by
  unfold Frame.byte Frame.clear
  simp

/-- The cleared buffer's pixels are off (R180). -/
theorem Frame.pixel_clear (px : Fin 64) (py : Fin 32) : Frame.clear.pixel px py = false := by
  unfold Frame.pixel
  rw [Frame.byte_clear]
  simp

end Sys2Proof.Machine
end

