-- ==== Sys2Proof/Laws/Flags.lean ====
section
/-!
SUPPORT. The flag byte is 0 or 1; a program counter put forward and back is where it was.
-/

namespace Sys2Proof.Machine

@[simp] theorem flagByte_toNat (b : Bool) : (flagByte b).toNat = if b then 1 else 0 := by
  cases b <;> rfl

/-- The flag byte is 1 exactly when the condition holds (R21). -/
theorem flagByte_eq_one (b : Bool) : flagByte b = 1 ↔ b = true := by
  cases b <;> simp [flagByte]

/-- The advance of the fetch and the retraction of a raise or a stall cancel (R90, R163). -/
@[simp] theorem pc_advance_retract (pc : Word) : pc + 2 - 2 = pc := by
  rw [BitVec.add_sub_cancel]

/-- The timer step as a natural number: one less, never below zero (R26, R96). -/
theorem timerDecrement_toNat (t : Byte) : (timerDecrement t).toNat = t.toNat - 1 := by
  unfold timerDecrement
  split
  · next h => subst h; rfl
  · next h =>
    have : t.toNat ≠ 0 := fun e => h (by rw [← BitVec.toNat_inj, e]; rfl)
    have hlt := t.isLt
    rw [BitVec.toNat_sub, show (1 : Byte).toNat = 1 from rfl]
    omega

end Sys2Proof.Machine
end

