-- ==== Sys2Proof/Laws/Memory.lean ====
section
/-!
SUPPORT. The laws of memory: a read after a write, and that every memory operation keeps the canonical form.
-/

namespace Sys2Proof.Machine

/-! ### The canonical form -/

/-- A canonical memory from `hi` on is one from any lower address on. -/
theorem Memory.wfFrom_mono {lo hi : Nat} (h : lo ≤ hi) : ∀ {m : Memory}, m.wfFrom hi → m.wfFrom lo
  | [], _ => rfl
  | (a, v) :: rest, w => by
    simp only [Memory.wfFrom, Bool.and_eq_true, decide_eq_true_eq] at w ⊢
    exact ⟨⟨⟨by omega, w.1.1.2⟩, w.1.2⟩, w.2⟩

/-- A canonical memory lists nothing below its first address, so it reads there as an unlisted address does. -/
theorem Memory.read_below {lo a : Nat} (h : a < lo) : ∀ {m : Memory}, m.wfFrom lo → m.read a = Memory.unlisted a
  | [], _ => rfl
  | (b, v) :: rest, w => by
    simp only [Memory.wfFrom, Bool.and_eq_true, decide_eq_true_eq] at w
    rw [Memory.read, if_neg (by omega)]
    exact Memory.read_below (lo := b + 1) (by omega) w.2

theorem Memory.wfFrom_cons {lo a : Nat} {v : Byte} {rest : Memory} (hl : lo ≤ a) (ha : a < memSize)
    (w : rest.wfFrom (a + 1)) : (Memory.cons a v rest).wfFrom lo := by
  unfold Memory.cons
  split
  · exact Memory.wfFrom_mono (by omega) w
  · next hv =>
    simp only [Memory.wfFrom, Bool.and_eq_true, decide_eq_true_eq, bne_iff_ne]
    exact ⟨⟨⟨hl, ha⟩, hv⟩, w⟩

theorem Memory.wfFrom_insert {lo a : Nat} {v : Byte} (ha : a < memSize) (hl : lo ≤ a) :
    ∀ {m : Memory}, m.wfFrom lo → (m.insert a v).wfFrom lo
  | [], _ => Memory.wfFrom_cons hl ha rfl
  | (b, u) :: rest, w => by
    simp only [Memory.wfFrom, Bool.and_eq_true, decide_eq_true_eq, bne_iff_ne] at w
    unfold Memory.insert
    split
    · refine Memory.wfFrom_cons hl ha ?_
      simp only [Memory.wfFrom, Bool.and_eq_true, decide_eq_true_eq, bne_iff_ne]
      exact ⟨⟨⟨by omega, w.1.1.2⟩, w.1.2⟩, w.2⟩
    · split
      · next h => subst h; exact Memory.wfFrom_cons hl ha w.2
      · simp only [Memory.wfFrom, Bool.and_eq_true, decide_eq_true_eq, bne_iff_ne]
        exact ⟨⟨⟨w.1.1.1, w.1.1.2⟩, w.1.2⟩, Memory.wfFrom_insert ha (by omega) w.2⟩

/-- A write keeps the canonical form. -/
theorem Memory.wf_write {m : Memory} (a : Nat) (v : Byte) (w : m.wf) : (m.write a v).wf := by
  unfold Memory.write
  split
  · exact Memory.wfFrom_insert ‹_› (Nat.zero_le a) w
  · exact w

/-- A block write keeps the canonical form. -/
theorem Memory.wf_writeBlock : ∀ (bs : List Byte) {m : Memory} (a : Nat), m.wf → (m.writeBlock a bs).wf
  | [], _, _, w => w
  | b :: bs, _, a, w => Memory.wf_writeBlock bs (a + 1) (Memory.wf_write a b w)

/-- The memory of the reset state is canonical. -/
theorem Memory.wf_nil : Memory.wf [] := rfl

/-! ### Reading after writing -/

theorem Memory.read_cons_other {a b : Nat} (h : b ≠ a) (v : Byte) (rest : Memory) :
    (Memory.cons a v rest).read b = rest.read b := by
  unfold Memory.cons
  split
  · rfl
  · simp [Memory.read, h]

theorem Memory.read_cons_same {a : Nat} {v : Byte} {rest : Memory} (w : rest.wfFrom (a + 1)) :
    (Memory.cons a v rest).read a = v := by
  unfold Memory.cons
  split
  · next h => rw [Memory.read_below (Nat.lt_succ_self a) w, h]
  · simp [Memory.read]

/-- A write leaves every other cell alone, in any memory. -/
theorem Memory.read_insert_other {a b : Nat} (h : b ≠ a) (v : Byte) :
    ∀ m : Memory, (m.insert a v).read b = m.read b
  | [] => Memory.read_cons_other h v []
  | (c, u) :: rest => by
    unfold Memory.insert
    split
    · exact Memory.read_cons_other h v _
    · split
      · next hc => subst hc; rw [Memory.read_cons_other h]; simp [Memory.read, h]
      · simp only [Memory.read, Memory.read_insert_other h v rest]

theorem Memory.read_insert_same {a : Nat} (v : Byte) :
    ∀ {lo : Nat} {m : Memory}, m.wfFrom lo → (m.insert a v).read a = v
  | _, [], _ => Memory.read_cons_same rfl
  | _, (c, u) :: rest, w => by
    simp only [Memory.wfFrom, Bool.and_eq_true, decide_eq_true_eq, bne_iff_ne] at w
    unfold Memory.insert
    split
    · refine Memory.read_cons_same ?_
      simp only [Memory.wfFrom, Bool.and_eq_true, decide_eq_true_eq, bne_iff_ne]
      exact ⟨⟨⟨by omega, w.1.1.2⟩, w.1.2⟩, w.2⟩
    · split
      · next h => subst h; exact Memory.read_cons_same w.2
      · next h1 h2 =>
        rw [Memory.read, if_neg h2]
        exact Memory.read_insert_same v w.2

/-- A write leaves every other cell alone, in any memory. -/
theorem Memory.read_write_other {a b : Nat} (h : b ≠ a) (m : Memory) (v : Byte) :
    (m.write a v).read b = m.read b := by
  unfold Memory.write
  split
  · exact Memory.read_insert_other h v m
  · rfl

/-- A read after a write to the same cell gives the value written. -/
theorem Memory.read_write_same {a : Nat} (ha : a < memSize) {m : Memory} (w : m.wf) (v : Byte) :
    (m.write a v).read a = v := by
  unfold Memory.write
  rw [if_pos ha]
  exact Memory.read_insert_same v w

/-- A block write leaves every cell outside the block alone, in any memory. -/
theorem Memory.read_writeBlock_outside {b : Nat} :
    ∀ (bs : List Byte) (m : Memory) (a : Nat), (b < a ∨ a + bs.length ≤ b) → (m.writeBlock a bs).read b = m.read b
  | [], _, _, _ => rfl
  | v :: bs, m, a, h => by
    rw [List.length_cons] at h
    rw [Memory.writeBlock, Memory.read_writeBlock_outside bs _ (a + 1) (by omega),
      Memory.read_write_other (by omega)]

/-- A read inside a written block gives the byte written there. -/
theorem Memory.read_writeBlock_inside :
    ∀ (bs : List Byte) {m : Memory} (a k : Nat) (hk : k < bs.length), m.wf → a + bs.length ≤ memSize →
      (m.writeBlock a bs).read (a + k) = bs[k]
  | v :: bs, m, a, 0, _, w, h => by
    rw [List.length_cons] at h
    rw [Memory.writeBlock, Memory.read_writeBlock_outside bs _ (a + 1) (by omega)]
    exact Memory.read_write_same (by omega) w v
  | v :: bs, m, a, k + 1, hk, w, h => by
    rw [List.length_cons] at h hk
    rw [Memory.writeBlock, show a + (k + 1) = a + 1 + k by omega]
    simpa using Memory.read_writeBlock_inside bs (a + 1) k (by omega) (Memory.wf_write a v w) (by omega)

@[simp] theorem Memory.readBlock_length (m : Memory) (a n : Nat) : (m.readBlock a n).length = n := by
  simp [Memory.readBlock]

@[simp] theorem Memory.readBlock_getElem (m : Memory) (a n k : Nat) (h : k < (m.readBlock a n).length) :
    (m.readBlock a n)[k] = m.read (a + k) := by
  simp [Memory.readBlock]

end Sys2Proof.Machine
end

