-- ==== Sys2Proof/Laws/State.lean ====
section
/-!
SUPPORT. One lemma per field for each named update of the state, so that no later proof unfolds a record update.
-/

namespace Sys2Proof.Machine

/-! ### State.faultEntry -/

@[simp] theorem State.faultEntry_V (s : State) (c : Cause) (pc0 op addr : Word) : (s.faultEntry c pc0 op addr).V = s.V := rfl
@[simp] theorem State.faultEntry_pc (s : State) (c : Cause) (pc0 op addr : Word) : (s.faultEntry c pc0 op addr).pc = pc0 := rfl
@[simp] theorem State.faultEntry_I (s : State) (c : Cause) (pc0 op addr : Word) : (s.faultEntry c pc0 op addr).I = s.I := rfl
@[simp] theorem State.faultEntry_sp (s : State) (c : Cause) (pc0 op addr : Word) : (s.faultEntry c pc0 op addr).sp = s.sp := rfl
@[simp] theorem State.faultEntry_stack (s : State) (c : Cause) (pc0 op addr : Word) : (s.faultEntry c pc0 op addr).stack = s.stack := rfl
@[simp] theorem State.faultEntry_DT (s : State) (c : Cause) (pc0 op addr : Word) : (s.faultEntry c pc0 op addr).DT = s.DT := rfl
@[simp] theorem State.faultEntry_ST (s : State) (c : Cause) (pc0 op addr : Word) : (s.faultEntry c pc0 op addr).ST = s.ST := rfl
@[simp] theorem State.faultEntry_mem (s : State) (c : Cause) (pc0 op addr : Word) : (s.faultEntry c pc0 op addr).mem = s.mem := rfl
@[simp] theorem State.faultEntry_fb (s : State) (c : Cause) (pc0 op addr : Word) : (s.faultEntry c pc0 op addr).fb = s.fb := rfl
@[simp] theorem State.faultEntry_kprev (s : State) (c : Cause) (pc0 op addr : Word) : (s.faultEntry c pc0 op addr).kprev = s.kprev := rfl
@[simp] theorem State.faultEntry_tacc (s : State) (c : Cause) (pc0 op addr : Word) : (s.faultEntry c pc0 op addr).tacc = s.tacc := rfl
@[simp] theorem State.faultEntry_dirty (s : State) (c : Cause) (pc0 op addr : Word) : (s.faultEntry c pc0 op addr).dirty = s.dirty := rfl
@[simp] theorem State.faultEntry_halted (s : State) (c : Cause) (pc0 op addr : Word) : (s.faultEntry c pc0 op addr).halted = true := rfl
@[simp] theorem State.faultEntry_fcause (s : State) (c : Cause) (pc0 op addr : Word) : (s.faultEntry c pc0 op addr).fcause = c.code := rfl
@[simp] theorem State.faultEntry_fpc (s : State) (c : Cause) (pc0 op addr : Word) : (s.faultEntry c pc0 op addr).fpc = pc0 := rfl
@[simp] theorem State.faultEntry_fop (s : State) (c : Cause) (pc0 op addr : Word) : (s.faultEntry c pc0 op addr).fop = op := rfl
@[simp] theorem State.faultEntry_faddr (s : State) (c : Cause) (pc0 op addr : Word) : (s.faultEntry c pc0 op addr).faddr = addr := rfl
@[simp] theorem State.faultEntry_params (s : State) (c : Cause) (pc0 op addr : Word) : (s.faultEntry c pc0 op addr).params = s.params := rfl
@[simp] theorem State.faultEntry_inputs (s : State) (c : Cause) (pc0 op addr : Word) : (s.faultEntry c pc0 op addr).inputs = s.inputs := rfl
@[simp] theorem State.faultEntry_served (s : State) (c : Cause) (pc0 op addr : Word) : (s.faultEntry c pc0 op addr).served = s.served := rfl

/-! ### State.raise -/

@[simp] theorem State.raise_V (s : State) (c : Cause) (op addr : Word) : (s.raise c op addr).V = s.V := rfl
@[simp] theorem State.raise_pc (s : State) (c : Cause) (op addr : Word) : (s.raise c op addr).pc = s.pc - 2 := rfl
@[simp] theorem State.raise_I (s : State) (c : Cause) (op addr : Word) : (s.raise c op addr).I = s.I := rfl
@[simp] theorem State.raise_sp (s : State) (c : Cause) (op addr : Word) : (s.raise c op addr).sp = s.sp := rfl
@[simp] theorem State.raise_stack (s : State) (c : Cause) (op addr : Word) : (s.raise c op addr).stack = s.stack := rfl
@[simp] theorem State.raise_DT (s : State) (c : Cause) (op addr : Word) : (s.raise c op addr).DT = s.DT := rfl
@[simp] theorem State.raise_ST (s : State) (c : Cause) (op addr : Word) : (s.raise c op addr).ST = s.ST := rfl
@[simp] theorem State.raise_mem (s : State) (c : Cause) (op addr : Word) : (s.raise c op addr).mem = s.mem := rfl
@[simp] theorem State.raise_fb (s : State) (c : Cause) (op addr : Word) : (s.raise c op addr).fb = s.fb := rfl
@[simp] theorem State.raise_kprev (s : State) (c : Cause) (op addr : Word) : (s.raise c op addr).kprev = s.kprev := rfl
@[simp] theorem State.raise_tacc (s : State) (c : Cause) (op addr : Word) : (s.raise c op addr).tacc = s.tacc := rfl
@[simp] theorem State.raise_dirty (s : State) (c : Cause) (op addr : Word) : (s.raise c op addr).dirty = s.dirty := rfl
@[simp] theorem State.raise_halted (s : State) (c : Cause) (op addr : Word) : (s.raise c op addr).halted = true := rfl
@[simp] theorem State.raise_fcause (s : State) (c : Cause) (op addr : Word) : (s.raise c op addr).fcause = c.code := rfl
@[simp] theorem State.raise_fpc (s : State) (c : Cause) (op addr : Word) : (s.raise c op addr).fpc = s.pc - 2 := rfl
@[simp] theorem State.raise_fop (s : State) (c : Cause) (op addr : Word) : (s.raise c op addr).fop = op := rfl
@[simp] theorem State.raise_faddr (s : State) (c : Cause) (op addr : Word) : (s.raise c op addr).faddr = addr := rfl
@[simp] theorem State.raise_params (s : State) (c : Cause) (op addr : Word) : (s.raise c op addr).params = s.params := rfl
@[simp] theorem State.raise_inputs (s : State) (c : Cause) (op addr : Word) : (s.raise c op addr).inputs = s.inputs := rfl
@[simp] theorem State.raise_served (s : State) (c : Cause) (op addr : Word) : (s.raise c op addr).served = s.served := rfl

/-! ### State.advance -/

@[simp] theorem State.advance_V (s : State) : (s.advance).V = s.V := rfl
@[simp] theorem State.advance_pc (s : State) : (s.advance).pc = s.pc + 2 := rfl
@[simp] theorem State.advance_I (s : State) : (s.advance).I = s.I := rfl
@[simp] theorem State.advance_sp (s : State) : (s.advance).sp = s.sp := rfl
@[simp] theorem State.advance_stack (s : State) : (s.advance).stack = s.stack := rfl
@[simp] theorem State.advance_DT (s : State) : (s.advance).DT = s.DT := rfl
@[simp] theorem State.advance_ST (s : State) : (s.advance).ST = s.ST := rfl
@[simp] theorem State.advance_mem (s : State) : (s.advance).mem = s.mem := rfl
@[simp] theorem State.advance_fb (s : State) : (s.advance).fb = s.fb := rfl
@[simp] theorem State.advance_kprev (s : State) : (s.advance).kprev = s.kprev := rfl
@[simp] theorem State.advance_tacc (s : State) : (s.advance).tacc = s.tacc := rfl
@[simp] theorem State.advance_dirty (s : State) : (s.advance).dirty = s.dirty := rfl
@[simp] theorem State.advance_halted (s : State) : (s.advance).halted = s.halted := rfl
@[simp] theorem State.advance_fcause (s : State) : (s.advance).fcause = s.fcause := rfl
@[simp] theorem State.advance_fpc (s : State) : (s.advance).fpc = s.fpc := rfl
@[simp] theorem State.advance_fop (s : State) : (s.advance).fop = s.fop := rfl
@[simp] theorem State.advance_faddr (s : State) : (s.advance).faddr = s.faddr := rfl
@[simp] theorem State.advance_params (s : State) : (s.advance).params = s.params := rfl
@[simp] theorem State.advance_inputs (s : State) : (s.advance).inputs = s.inputs := rfl
@[simp] theorem State.advance_served (s : State) : (s.advance).served = s.served := rfl

/-! ### State.skipIf -/

@[simp] theorem State.skipIf_V (s : State) (b : Bool) : (s.skipIf b).V = s.V := rfl
@[simp] theorem State.skipIf_pc (s : State) (b : Bool) : (s.skipIf b).pc = if b then s.pc + 2 else s.pc := rfl
@[simp] theorem State.skipIf_I (s : State) (b : Bool) : (s.skipIf b).I = s.I := rfl
@[simp] theorem State.skipIf_sp (s : State) (b : Bool) : (s.skipIf b).sp = s.sp := rfl
@[simp] theorem State.skipIf_stack (s : State) (b : Bool) : (s.skipIf b).stack = s.stack := rfl
@[simp] theorem State.skipIf_DT (s : State) (b : Bool) : (s.skipIf b).DT = s.DT := rfl
@[simp] theorem State.skipIf_ST (s : State) (b : Bool) : (s.skipIf b).ST = s.ST := rfl
@[simp] theorem State.skipIf_mem (s : State) (b : Bool) : (s.skipIf b).mem = s.mem := rfl
@[simp] theorem State.skipIf_fb (s : State) (b : Bool) : (s.skipIf b).fb = s.fb := rfl
@[simp] theorem State.skipIf_kprev (s : State) (b : Bool) : (s.skipIf b).kprev = s.kprev := rfl
@[simp] theorem State.skipIf_tacc (s : State) (b : Bool) : (s.skipIf b).tacc = s.tacc := rfl
@[simp] theorem State.skipIf_dirty (s : State) (b : Bool) : (s.skipIf b).dirty = s.dirty := rfl
@[simp] theorem State.skipIf_halted (s : State) (b : Bool) : (s.skipIf b).halted = s.halted := rfl
@[simp] theorem State.skipIf_fcause (s : State) (b : Bool) : (s.skipIf b).fcause = s.fcause := rfl
@[simp] theorem State.skipIf_fpc (s : State) (b : Bool) : (s.skipIf b).fpc = s.fpc := rfl
@[simp] theorem State.skipIf_fop (s : State) (b : Bool) : (s.skipIf b).fop = s.fop := rfl
@[simp] theorem State.skipIf_faddr (s : State) (b : Bool) : (s.skipIf b).faddr = s.faddr := rfl
@[simp] theorem State.skipIf_params (s : State) (b : Bool) : (s.skipIf b).params = s.params := rfl
@[simp] theorem State.skipIf_inputs (s : State) (b : Bool) : (s.skipIf b).inputs = s.inputs := rfl
@[simp] theorem State.skipIf_served (s : State) (b : Bool) : (s.skipIf b).served = s.served := rfl

/-! ### State.jump -/

@[simp] theorem State.jump_V (s : State) (w : Word) : (s.jump w).V = s.V := rfl
@[simp] theorem State.jump_pc (s : State) (w : Word) : (s.jump w).pc = w := rfl
@[simp] theorem State.jump_I (s : State) (w : Word) : (s.jump w).I = s.I := rfl
@[simp] theorem State.jump_sp (s : State) (w : Word) : (s.jump w).sp = s.sp := rfl
@[simp] theorem State.jump_stack (s : State) (w : Word) : (s.jump w).stack = s.stack := rfl
@[simp] theorem State.jump_DT (s : State) (w : Word) : (s.jump w).DT = s.DT := rfl
@[simp] theorem State.jump_ST (s : State) (w : Word) : (s.jump w).ST = s.ST := rfl
@[simp] theorem State.jump_mem (s : State) (w : Word) : (s.jump w).mem = s.mem := rfl
@[simp] theorem State.jump_fb (s : State) (w : Word) : (s.jump w).fb = s.fb := rfl
@[simp] theorem State.jump_kprev (s : State) (w : Word) : (s.jump w).kprev = s.kprev := rfl
@[simp] theorem State.jump_tacc (s : State) (w : Word) : (s.jump w).tacc = s.tacc := rfl
@[simp] theorem State.jump_dirty (s : State) (w : Word) : (s.jump w).dirty = s.dirty := rfl
@[simp] theorem State.jump_halted (s : State) (w : Word) : (s.jump w).halted = s.halted := rfl
@[simp] theorem State.jump_fcause (s : State) (w : Word) : (s.jump w).fcause = s.fcause := rfl
@[simp] theorem State.jump_fpc (s : State) (w : Word) : (s.jump w).fpc = s.fpc := rfl
@[simp] theorem State.jump_fop (s : State) (w : Word) : (s.jump w).fop = s.fop := rfl
@[simp] theorem State.jump_faddr (s : State) (w : Word) : (s.jump w).faddr = s.faddr := rfl
@[simp] theorem State.jump_params (s : State) (w : Word) : (s.jump w).params = s.params := rfl
@[simp] theorem State.jump_inputs (s : State) (w : Word) : (s.jump w).inputs = s.inputs := rfl
@[simp] theorem State.jump_served (s : State) (w : Word) : (s.jump w).served = s.served := rfl

/-! ### State.push -/

@[simp] theorem State.push_V (s : State) (w : Word) (h : s.sp.val < 16) : (s.push w h).V = s.V := rfl
@[simp] theorem State.push_pc (s : State) (w : Word) (h : s.sp.val < 16) : (s.push w h).pc = s.pc := rfl
@[simp] theorem State.push_I (s : State) (w : Word) (h : s.sp.val < 16) : (s.push w h).I = s.I := rfl
@[simp] theorem State.push_sp (s : State) (w : Word) (h : s.sp.val < 16) : (s.push w h).sp = ⟨s.sp.val + 1, by omega⟩ := rfl
@[simp] theorem State.push_stack (s : State) (w : Word) (h : s.sp.val < 16) : (s.push w h).stack = s.stack.set s.sp.val w h := rfl
@[simp] theorem State.push_DT (s : State) (w : Word) (h : s.sp.val < 16) : (s.push w h).DT = s.DT := rfl
@[simp] theorem State.push_ST (s : State) (w : Word) (h : s.sp.val < 16) : (s.push w h).ST = s.ST := rfl
@[simp] theorem State.push_mem (s : State) (w : Word) (h : s.sp.val < 16) : (s.push w h).mem = s.mem := rfl
@[simp] theorem State.push_fb (s : State) (w : Word) (h : s.sp.val < 16) : (s.push w h).fb = s.fb := rfl
@[simp] theorem State.push_kprev (s : State) (w : Word) (h : s.sp.val < 16) : (s.push w h).kprev = s.kprev := rfl
@[simp] theorem State.push_tacc (s : State) (w : Word) (h : s.sp.val < 16) : (s.push w h).tacc = s.tacc := rfl
@[simp] theorem State.push_dirty (s : State) (w : Word) (h : s.sp.val < 16) : (s.push w h).dirty = s.dirty := rfl
@[simp] theorem State.push_halted (s : State) (w : Word) (h : s.sp.val < 16) : (s.push w h).halted = s.halted := rfl
@[simp] theorem State.push_fcause (s : State) (w : Word) (h : s.sp.val < 16) : (s.push w h).fcause = s.fcause := rfl
@[simp] theorem State.push_fpc (s : State) (w : Word) (h : s.sp.val < 16) : (s.push w h).fpc = s.fpc := rfl
@[simp] theorem State.push_fop (s : State) (w : Word) (h : s.sp.val < 16) : (s.push w h).fop = s.fop := rfl
@[simp] theorem State.push_faddr (s : State) (w : Word) (h : s.sp.val < 16) : (s.push w h).faddr = s.faddr := rfl
@[simp] theorem State.push_params (s : State) (w : Word) (h : s.sp.val < 16) : (s.push w h).params = s.params := rfl
@[simp] theorem State.push_inputs (s : State) (w : Word) (h : s.sp.val < 16) : (s.push w h).inputs = s.inputs := rfl
@[simp] theorem State.push_served (s : State) (w : Word) (h : s.sp.val < 16) : (s.push w h).served = s.served := rfl

/-! ### State.pop -/

@[simp] theorem State.pop_V (s : State) : (s.pop).V = s.V := rfl
@[simp] theorem State.pop_pc (s : State) : (s.pop).pc = s.pc := rfl
@[simp] theorem State.pop_I (s : State) : (s.pop).I = s.I := rfl
@[simp] theorem State.pop_sp (s : State) : (s.pop).sp = ⟨s.sp.val - 1, by have := s.sp.isLt; omega⟩ := rfl
@[simp] theorem State.pop_stack (s : State) : (s.pop).stack = s.stack := rfl
@[simp] theorem State.pop_DT (s : State) : (s.pop).DT = s.DT := rfl
@[simp] theorem State.pop_ST (s : State) : (s.pop).ST = s.ST := rfl
@[simp] theorem State.pop_mem (s : State) : (s.pop).mem = s.mem := rfl
@[simp] theorem State.pop_fb (s : State) : (s.pop).fb = s.fb := rfl
@[simp] theorem State.pop_kprev (s : State) : (s.pop).kprev = s.kprev := rfl
@[simp] theorem State.pop_tacc (s : State) : (s.pop).tacc = s.tacc := rfl
@[simp] theorem State.pop_dirty (s : State) : (s.pop).dirty = s.dirty := rfl
@[simp] theorem State.pop_halted (s : State) : (s.pop).halted = s.halted := rfl
@[simp] theorem State.pop_fcause (s : State) : (s.pop).fcause = s.fcause := rfl
@[simp] theorem State.pop_fpc (s : State) : (s.pop).fpc = s.fpc := rfl
@[simp] theorem State.pop_fop (s : State) : (s.pop).fop = s.fop := rfl
@[simp] theorem State.pop_faddr (s : State) : (s.pop).faddr = s.faddr := rfl
@[simp] theorem State.pop_params (s : State) : (s.pop).params = s.params := rfl
@[simp] theorem State.pop_inputs (s : State) : (s.pop).inputs = s.inputs := rfl
@[simp] theorem State.pop_served (s : State) : (s.pop).served = s.served := rfl

/-! ### State.storeBytes -/

@[simp] theorem State.storeBytes_V (s : State) (a : Nat) (bs : List Byte) : (s.storeBytes a bs).V = s.V := rfl
@[simp] theorem State.storeBytes_pc (s : State) (a : Nat) (bs : List Byte) : (s.storeBytes a bs).pc = s.pc := rfl
@[simp] theorem State.storeBytes_I (s : State) (a : Nat) (bs : List Byte) : (s.storeBytes a bs).I = s.I := rfl
@[simp] theorem State.storeBytes_sp (s : State) (a : Nat) (bs : List Byte) : (s.storeBytes a bs).sp = s.sp := rfl
@[simp] theorem State.storeBytes_stack (s : State) (a : Nat) (bs : List Byte) : (s.storeBytes a bs).stack = s.stack := rfl
@[simp] theorem State.storeBytes_DT (s : State) (a : Nat) (bs : List Byte) : (s.storeBytes a bs).DT = s.DT := rfl
@[simp] theorem State.storeBytes_ST (s : State) (a : Nat) (bs : List Byte) : (s.storeBytes a bs).ST = s.ST := rfl
@[simp] theorem State.storeBytes_mem (s : State) (a : Nat) (bs : List Byte) : (s.storeBytes a bs).mem = s.mem.writeBlock a bs := rfl
@[simp] theorem State.storeBytes_fb (s : State) (a : Nat) (bs : List Byte) : (s.storeBytes a bs).fb = s.fb := rfl
@[simp] theorem State.storeBytes_kprev (s : State) (a : Nat) (bs : List Byte) : (s.storeBytes a bs).kprev = s.kprev := rfl
@[simp] theorem State.storeBytes_tacc (s : State) (a : Nat) (bs : List Byte) : (s.storeBytes a bs).tacc = s.tacc := rfl
@[simp] theorem State.storeBytes_dirty (s : State) (a : Nat) (bs : List Byte) : (s.storeBytes a bs).dirty = s.dirty := rfl
@[simp] theorem State.storeBytes_halted (s : State) (a : Nat) (bs : List Byte) : (s.storeBytes a bs).halted = s.halted := rfl
@[simp] theorem State.storeBytes_fcause (s : State) (a : Nat) (bs : List Byte) : (s.storeBytes a bs).fcause = s.fcause := rfl
@[simp] theorem State.storeBytes_fpc (s : State) (a : Nat) (bs : List Byte) : (s.storeBytes a bs).fpc = s.fpc := rfl
@[simp] theorem State.storeBytes_fop (s : State) (a : Nat) (bs : List Byte) : (s.storeBytes a bs).fop = s.fop := rfl
@[simp] theorem State.storeBytes_faddr (s : State) (a : Nat) (bs : List Byte) : (s.storeBytes a bs).faddr = s.faddr := rfl
@[simp] theorem State.storeBytes_params (s : State) (a : Nat) (bs : List Byte) : (s.storeBytes a bs).params = s.params := rfl
@[simp] theorem State.storeBytes_inputs (s : State) (a : Nat) (bs : List Byte) : (s.storeBytes a bs).inputs = s.inputs := rfl
@[simp] theorem State.storeBytes_served (s : State) (a : Nat) (bs : List Byte) : (s.storeBytes a bs).served = s.served := rfl

/-! ### State.setReg -/

@[simp] theorem State.setReg_V (s : State) (x : RegIx) (v : Byte) : (s.setReg x v).V = s.V.set x.toNat v x.isLt := rfl
@[simp] theorem State.setReg_pc (s : State) (x : RegIx) (v : Byte) : (s.setReg x v).pc = s.pc := rfl
@[simp] theorem State.setReg_I (s : State) (x : RegIx) (v : Byte) : (s.setReg x v).I = s.I := rfl
@[simp] theorem State.setReg_sp (s : State) (x : RegIx) (v : Byte) : (s.setReg x v).sp = s.sp := rfl
@[simp] theorem State.setReg_stack (s : State) (x : RegIx) (v : Byte) : (s.setReg x v).stack = s.stack := rfl
@[simp] theorem State.setReg_DT (s : State) (x : RegIx) (v : Byte) : (s.setReg x v).DT = s.DT := rfl
@[simp] theorem State.setReg_ST (s : State) (x : RegIx) (v : Byte) : (s.setReg x v).ST = s.ST := rfl
@[simp] theorem State.setReg_mem (s : State) (x : RegIx) (v : Byte) : (s.setReg x v).mem = s.mem := rfl
@[simp] theorem State.setReg_fb (s : State) (x : RegIx) (v : Byte) : (s.setReg x v).fb = s.fb := rfl
@[simp] theorem State.setReg_kprev (s : State) (x : RegIx) (v : Byte) : (s.setReg x v).kprev = s.kprev := rfl
@[simp] theorem State.setReg_tacc (s : State) (x : RegIx) (v : Byte) : (s.setReg x v).tacc = s.tacc := rfl
@[simp] theorem State.setReg_dirty (s : State) (x : RegIx) (v : Byte) : (s.setReg x v).dirty = s.dirty := rfl
@[simp] theorem State.setReg_halted (s : State) (x : RegIx) (v : Byte) : (s.setReg x v).halted = s.halted := rfl
@[simp] theorem State.setReg_fcause (s : State) (x : RegIx) (v : Byte) : (s.setReg x v).fcause = s.fcause := rfl
@[simp] theorem State.setReg_fpc (s : State) (x : RegIx) (v : Byte) : (s.setReg x v).fpc = s.fpc := rfl
@[simp] theorem State.setReg_fop (s : State) (x : RegIx) (v : Byte) : (s.setReg x v).fop = s.fop := rfl
@[simp] theorem State.setReg_faddr (s : State) (x : RegIx) (v : Byte) : (s.setReg x v).faddr = s.faddr := rfl
@[simp] theorem State.setReg_params (s : State) (x : RegIx) (v : Byte) : (s.setReg x v).params = s.params := rfl
@[simp] theorem State.setReg_inputs (s : State) (x : RegIx) (v : Byte) : (s.setReg x v).inputs = s.inputs := rfl
@[simp] theorem State.setReg_served (s : State) (x : RegIx) (v : Byte) : (s.setReg x v).served = s.served := rfl

/-! ### State.setFlag -/

@[simp] theorem State.setFlag_V (s : State) (c : Byte) : (s.setFlag c).V = (s.setReg VF c).V := rfl
@[simp] theorem State.setFlag_pc (s : State) (c : Byte) : (s.setFlag c).pc = s.pc := rfl
@[simp] theorem State.setFlag_I (s : State) (c : Byte) : (s.setFlag c).I = s.I := rfl
@[simp] theorem State.setFlag_sp (s : State) (c : Byte) : (s.setFlag c).sp = s.sp := rfl
@[simp] theorem State.setFlag_stack (s : State) (c : Byte) : (s.setFlag c).stack = s.stack := rfl
@[simp] theorem State.setFlag_DT (s : State) (c : Byte) : (s.setFlag c).DT = s.DT := rfl
@[simp] theorem State.setFlag_ST (s : State) (c : Byte) : (s.setFlag c).ST = s.ST := rfl
@[simp] theorem State.setFlag_mem (s : State) (c : Byte) : (s.setFlag c).mem = s.mem := rfl
@[simp] theorem State.setFlag_fb (s : State) (c : Byte) : (s.setFlag c).fb = s.fb := rfl
@[simp] theorem State.setFlag_kprev (s : State) (c : Byte) : (s.setFlag c).kprev = s.kprev := rfl
@[simp] theorem State.setFlag_tacc (s : State) (c : Byte) : (s.setFlag c).tacc = s.tacc := rfl
@[simp] theorem State.setFlag_dirty (s : State) (c : Byte) : (s.setFlag c).dirty = s.dirty := rfl
@[simp] theorem State.setFlag_halted (s : State) (c : Byte) : (s.setFlag c).halted = s.halted := rfl
@[simp] theorem State.setFlag_fcause (s : State) (c : Byte) : (s.setFlag c).fcause = s.fcause := rfl
@[simp] theorem State.setFlag_fpc (s : State) (c : Byte) : (s.setFlag c).fpc = s.fpc := rfl
@[simp] theorem State.setFlag_fop (s : State) (c : Byte) : (s.setFlag c).fop = s.fop := rfl
@[simp] theorem State.setFlag_faddr (s : State) (c : Byte) : (s.setFlag c).faddr = s.faddr := rfl
@[simp] theorem State.setFlag_params (s : State) (c : Byte) : (s.setFlag c).params = s.params := rfl
@[simp] theorem State.setFlag_inputs (s : State) (c : Byte) : (s.setFlag c).inputs = s.inputs := rfl
@[simp] theorem State.setFlag_served (s : State) (c : Byte) : (s.setFlag c).served = s.served := rfl

/-! ### State.setRegFlag -/

@[simp] theorem State.setRegFlag_V (s : State) (x : RegIx) (rc : Byte × Byte) : (s.setRegFlag x rc).V = ((s.setReg x rc.1).setReg VF rc.2).V := rfl
@[simp] theorem State.setRegFlag_pc (s : State) (x : RegIx) (rc : Byte × Byte) : (s.setRegFlag x rc).pc = s.pc := rfl
@[simp] theorem State.setRegFlag_I (s : State) (x : RegIx) (rc : Byte × Byte) : (s.setRegFlag x rc).I = s.I := rfl
@[simp] theorem State.setRegFlag_sp (s : State) (x : RegIx) (rc : Byte × Byte) : (s.setRegFlag x rc).sp = s.sp := rfl
@[simp] theorem State.setRegFlag_stack (s : State) (x : RegIx) (rc : Byte × Byte) : (s.setRegFlag x rc).stack = s.stack := rfl
@[simp] theorem State.setRegFlag_DT (s : State) (x : RegIx) (rc : Byte × Byte) : (s.setRegFlag x rc).DT = s.DT := rfl
@[simp] theorem State.setRegFlag_ST (s : State) (x : RegIx) (rc : Byte × Byte) : (s.setRegFlag x rc).ST = s.ST := rfl
@[simp] theorem State.setRegFlag_mem (s : State) (x : RegIx) (rc : Byte × Byte) : (s.setRegFlag x rc).mem = s.mem := rfl
@[simp] theorem State.setRegFlag_fb (s : State) (x : RegIx) (rc : Byte × Byte) : (s.setRegFlag x rc).fb = s.fb := rfl
@[simp] theorem State.setRegFlag_kprev (s : State) (x : RegIx) (rc : Byte × Byte) : (s.setRegFlag x rc).kprev = s.kprev := rfl
@[simp] theorem State.setRegFlag_tacc (s : State) (x : RegIx) (rc : Byte × Byte) : (s.setRegFlag x rc).tacc = s.tacc := rfl
@[simp] theorem State.setRegFlag_dirty (s : State) (x : RegIx) (rc : Byte × Byte) : (s.setRegFlag x rc).dirty = s.dirty := rfl
@[simp] theorem State.setRegFlag_halted (s : State) (x : RegIx) (rc : Byte × Byte) : (s.setRegFlag x rc).halted = s.halted := rfl
@[simp] theorem State.setRegFlag_fcause (s : State) (x : RegIx) (rc : Byte × Byte) : (s.setRegFlag x rc).fcause = s.fcause := rfl
@[simp] theorem State.setRegFlag_fpc (s : State) (x : RegIx) (rc : Byte × Byte) : (s.setRegFlag x rc).fpc = s.fpc := rfl
@[simp] theorem State.setRegFlag_fop (s : State) (x : RegIx) (rc : Byte × Byte) : (s.setRegFlag x rc).fop = s.fop := rfl
@[simp] theorem State.setRegFlag_faddr (s : State) (x : RegIx) (rc : Byte × Byte) : (s.setRegFlag x rc).faddr = s.faddr := rfl
@[simp] theorem State.setRegFlag_params (s : State) (x : RegIx) (rc : Byte × Byte) : (s.setRegFlag x rc).params = s.params := rfl
@[simp] theorem State.setRegFlag_inputs (s : State) (x : RegIx) (rc : Byte × Byte) : (s.setRegFlag x rc).inputs = s.inputs := rfl
@[simp] theorem State.setRegFlag_served (s : State) (x : RegIx) (rc : Byte × Byte) : (s.setRegFlag x rc).served = s.served := rfl

/-! ### State.sampleKeys -/

@[simp] theorem State.sampleKeys_V (s : State) : (s.sampleKeys).V = s.V := rfl
@[simp] theorem State.sampleKeys_pc (s : State) : (s.sampleKeys).pc = s.pc := rfl
@[simp] theorem State.sampleKeys_I (s : State) : (s.sampleKeys).I = s.I := rfl
@[simp] theorem State.sampleKeys_sp (s : State) : (s.sampleKeys).sp = s.sp := rfl
@[simp] theorem State.sampleKeys_stack (s : State) : (s.sampleKeys).stack = s.stack := rfl
@[simp] theorem State.sampleKeys_DT (s : State) : (s.sampleKeys).DT = s.DT := rfl
@[simp] theorem State.sampleKeys_ST (s : State) : (s.sampleKeys).ST = s.ST := rfl
@[simp] theorem State.sampleKeys_mem (s : State) : (s.sampleKeys).mem = s.mem := rfl
@[simp] theorem State.sampleKeys_fb (s : State) : (s.sampleKeys).fb = s.fb := rfl
@[simp] theorem State.sampleKeys_kprev (s : State) : (s.sampleKeys).kprev = s.K := rfl
@[simp] theorem State.sampleKeys_tacc (s : State) : (s.sampleKeys).tacc = s.tacc := rfl
@[simp] theorem State.sampleKeys_dirty (s : State) : (s.sampleKeys).dirty = s.dirty := rfl
@[simp] theorem State.sampleKeys_halted (s : State) : (s.sampleKeys).halted = s.halted := rfl
@[simp] theorem State.sampleKeys_fcause (s : State) : (s.sampleKeys).fcause = s.fcause := rfl
@[simp] theorem State.sampleKeys_fpc (s : State) : (s.sampleKeys).fpc = s.fpc := rfl
@[simp] theorem State.sampleKeys_fop (s : State) : (s.sampleKeys).fop = s.fop := rfl
@[simp] theorem State.sampleKeys_faddr (s : State) : (s.sampleKeys).faddr = s.faddr := rfl
@[simp] theorem State.sampleKeys_params (s : State) : (s.sampleKeys).params = s.params := rfl
@[simp] theorem State.sampleKeys_inputs (s : State) : (s.sampleKeys).inputs = s.inputs.tail := rfl
@[simp] theorem State.sampleKeys_served (s : State) : (s.sampleKeys).served = s.served + 1 := rfl

/-! ### State.dirtyClear -/

@[simp] theorem State.dirtyClear_V (s : State) : (s.dirtyClear).V = s.V := rfl
@[simp] theorem State.dirtyClear_pc (s : State) : (s.dirtyClear).pc = s.pc := rfl
@[simp] theorem State.dirtyClear_I (s : State) : (s.dirtyClear).I = s.I := rfl
@[simp] theorem State.dirtyClear_sp (s : State) : (s.dirtyClear).sp = s.sp := rfl
@[simp] theorem State.dirtyClear_stack (s : State) : (s.dirtyClear).stack = s.stack := rfl
@[simp] theorem State.dirtyClear_DT (s : State) : (s.dirtyClear).DT = s.DT := rfl
@[simp] theorem State.dirtyClear_ST (s : State) : (s.dirtyClear).ST = s.ST := rfl
@[simp] theorem State.dirtyClear_mem (s : State) : (s.dirtyClear).mem = s.mem := rfl
@[simp] theorem State.dirtyClear_fb (s : State) : (s.dirtyClear).fb = s.fb := rfl
@[simp] theorem State.dirtyClear_kprev (s : State) : (s.dirtyClear).kprev = s.kprev := rfl
@[simp] theorem State.dirtyClear_tacc (s : State) : (s.dirtyClear).tacc = s.tacc := rfl
@[simp] theorem State.dirtyClear_dirty (s : State) : (s.dirtyClear).dirty = false := rfl
@[simp] theorem State.dirtyClear_halted (s : State) : (s.dirtyClear).halted = s.halted := rfl
@[simp] theorem State.dirtyClear_fcause (s : State) : (s.dirtyClear).fcause = s.fcause := rfl
@[simp] theorem State.dirtyClear_fpc (s : State) : (s.dirtyClear).fpc = s.fpc := rfl
@[simp] theorem State.dirtyClear_fop (s : State) : (s.dirtyClear).fop = s.fop := rfl
@[simp] theorem State.dirtyClear_faddr (s : State) : (s.dirtyClear).faddr = s.faddr := rfl
@[simp] theorem State.dirtyClear_params (s : State) : (s.dirtyClear).params = s.params := rfl
@[simp] theorem State.dirtyClear_inputs (s : State) : (s.dirtyClear).inputs = s.inputs := rfl
@[simp] theorem State.dirtyClear_served (s : State) : (s.dirtyClear).served = s.served := rfl

/-! ### State.timerTick: the timers and the accumulator move, nothing else -/

@[simp] theorem State.timerTick_V (s : State) : s.timerTick.V = s.V := by
  unfold State.timerTick; split <;> rfl
@[simp] theorem State.timerTick_pc (s : State) : s.timerTick.pc = s.pc := by
  unfold State.timerTick; split <;> rfl
@[simp] theorem State.timerTick_I (s : State) : s.timerTick.I = s.I := by
  unfold State.timerTick; split <;> rfl
@[simp] theorem State.timerTick_sp (s : State) : s.timerTick.sp = s.sp := by
  unfold State.timerTick; split <;> rfl
@[simp] theorem State.timerTick_stack (s : State) : s.timerTick.stack = s.stack := by
  unfold State.timerTick; split <;> rfl
@[simp] theorem State.timerTick_DT (s : State) : s.timerTick.DT = if s.params.cycleRate ≤ s.tacc + 60 then timerDecrement s.DT else s.DT := by
  unfold State.timerTick; split <;> rfl
@[simp] theorem State.timerTick_ST (s : State) : s.timerTick.ST = if s.params.cycleRate ≤ s.tacc + 60 then timerDecrement s.ST else s.ST := by
  unfold State.timerTick; split <;> rfl
@[simp] theorem State.timerTick_mem (s : State) : s.timerTick.mem = s.mem := by
  unfold State.timerTick; split <;> rfl
@[simp] theorem State.timerTick_fb (s : State) : s.timerTick.fb = s.fb := by
  unfold State.timerTick; split <;> rfl
@[simp] theorem State.timerTick_kprev (s : State) : s.timerTick.kprev = s.kprev := by
  unfold State.timerTick; split <;> rfl
@[simp] theorem State.timerTick_tacc (s : State) : s.timerTick.tacc = if s.params.cycleRate ≤ s.tacc + 60 then s.tacc + 60 - s.params.cycleRate else s.tacc + 60 := by
  unfold State.timerTick; split <;> rfl
@[simp] theorem State.timerTick_dirty (s : State) : s.timerTick.dirty = s.dirty := by
  unfold State.timerTick; split <;> rfl
@[simp] theorem State.timerTick_halted (s : State) : s.timerTick.halted = s.halted := by
  unfold State.timerTick; split <;> rfl
@[simp] theorem State.timerTick_fcause (s : State) : s.timerTick.fcause = s.fcause := by
  unfold State.timerTick; split <;> rfl
@[simp] theorem State.timerTick_fpc (s : State) : s.timerTick.fpc = s.fpc := by
  unfold State.timerTick; split <;> rfl
@[simp] theorem State.timerTick_fop (s : State) : s.timerTick.fop = s.fop := by
  unfold State.timerTick; split <;> rfl
@[simp] theorem State.timerTick_faddr (s : State) : s.timerTick.faddr = s.faddr := by
  unfold State.timerTick; split <;> rfl
@[simp] theorem State.timerTick_params (s : State) : s.timerTick.params = s.params := by
  unfold State.timerTick; split <;> rfl
@[simp] theorem State.timerTick_inputs (s : State) : s.timerTick.inputs = s.inputs := by
  unfold State.timerTick; split <;> rfl
@[simp] theorem State.timerTick_served (s : State) : s.timerTick.served = s.served := by
  unfold State.timerTick; split <;> rfl

/-! ### The cycle's input depends on the two input fields only -/

theorem State.K_of_inputs {s t : State} (h : t.inputs = s.inputs) (h' : t.served = s.served) : t.K = s.K := by
  unfold State.K State.input; rw [h, h']

theorem State.rnd_of_inputs {s t : State} (h : t.inputs = s.inputs) (h' : t.served = s.served) : t.rnd = s.rnd := by
  unfold State.rnd State.input; rw [h, h']

@[simp] theorem State.timerTick_K (s : State) : s.timerTick.K = s.K :=
  State.K_of_inputs (by simp) (by simp)

/-! ### State.endCycle -/

@[simp] theorem State.endCycle_V (s : State) : s.endCycle.V = s.V := by
  simp [State.endCycle]
@[simp] theorem State.endCycle_pc (s : State) : s.endCycle.pc = s.pc := by
  simp [State.endCycle]
@[simp] theorem State.endCycle_I (s : State) : s.endCycle.I = s.I := by
  simp [State.endCycle]
@[simp] theorem State.endCycle_sp (s : State) : s.endCycle.sp = s.sp := by
  simp [State.endCycle]
@[simp] theorem State.endCycle_stack (s : State) : s.endCycle.stack = s.stack := by
  simp [State.endCycle]
@[simp] theorem State.endCycle_DT (s : State) : s.endCycle.DT = if s.params.cycleRate ≤ s.tacc + 60 then timerDecrement s.DT else s.DT := by
  simp [State.endCycle]
@[simp] theorem State.endCycle_ST (s : State) : s.endCycle.ST = if s.params.cycleRate ≤ s.tacc + 60 then timerDecrement s.ST else s.ST := by
  simp [State.endCycle]
@[simp] theorem State.endCycle_mem (s : State) : s.endCycle.mem = s.mem := by
  simp [State.endCycle]
@[simp] theorem State.endCycle_fb (s : State) : s.endCycle.fb = s.fb := by
  simp [State.endCycle]
@[simp] theorem State.endCycle_kprev (s : State) : s.endCycle.kprev = s.K := by
  simp [State.endCycle]
@[simp] theorem State.endCycle_tacc (s : State) : s.endCycle.tacc = if s.params.cycleRate ≤ s.tacc + 60 then s.tacc + 60 - s.params.cycleRate else s.tacc + 60 := by
  simp [State.endCycle]
@[simp] theorem State.endCycle_dirty (s : State) : s.endCycle.dirty = s.dirty := by
  simp [State.endCycle]
@[simp] theorem State.endCycle_halted (s : State) : s.endCycle.halted = s.halted := by
  simp [State.endCycle]
@[simp] theorem State.endCycle_fcause (s : State) : s.endCycle.fcause = s.fcause := by
  simp [State.endCycle]
@[simp] theorem State.endCycle_fpc (s : State) : s.endCycle.fpc = s.fpc := by
  simp [State.endCycle]
@[simp] theorem State.endCycle_fop (s : State) : s.endCycle.fop = s.fop := by
  simp [State.endCycle]
@[simp] theorem State.endCycle_faddr (s : State) : s.endCycle.faddr = s.faddr := by
  simp [State.endCycle]
@[simp] theorem State.endCycle_params (s : State) : s.endCycle.params = s.params := by
  simp [State.endCycle]
@[simp] theorem State.endCycle_inputs (s : State) : s.endCycle.inputs = s.inputs.tail := by
  simp [State.endCycle]
@[simp] theorem State.endCycle_served (s : State) : s.endCycle.served = s.served + 1 := by
  simp [State.endCycle]

end Sys2Proof.Machine
end

