-- ==== Sys2Proof/Laws/Operands.lean ====
section
/-!
SUPPORT. What the register accessors and the two checked operand forms do, once: later proofs cite these.
-/

namespace Sys2Proof.Machine

/-! ### General registers -/

/-- A register read after a register write. -/
theorem State.reg_setReg (s : State) (x y : RegIx) (v : Byte) :
    (s.setReg x v).reg y = if y = x then v else s.reg y := by
  simp only [State.reg, State.setReg_V, Vector.getElem_set, BitVec.toNat_inj, eq_comm (a := x)]

@[simp] theorem State.reg_setReg_same (s : State) (x : RegIx) (v : Byte) : (s.setReg x v).reg x = v := by
  rw [State.reg_setReg, if_pos rfl]

theorem State.reg_setReg_other (s : State) {x y : RegIx} (h : y ≠ x) (v : Byte) :
    (s.setReg x v).reg y = s.reg y := by
  rw [State.reg_setReg, if_neg h]

/-- A register read depends on `V` alone. -/
theorem State.reg_of_V {s t : State} (h : t.V = s.V) (x : RegIx) : t.reg x = s.reg x := by
  unfold State.reg; simp only [h]

/-- The flag ends in VF. -/
@[simp] theorem State.reg_setFlag_VF (s : State) (c : Byte) : (s.setFlag c).reg VF = c :=
  State.reg_setReg_same s VF c

theorem State.reg_setFlag_other (s : State) {y : RegIx} (h : y ≠ VF) (c : Byte) : (s.setFlag c).reg y = s.reg y :=
  State.reg_setReg_other s h c

/-- The flag ends in VF whatever the destination (R21). -/
@[simp] theorem State.reg_setRegFlag_VF (s : State) (x : RegIx) (rc : Byte × Byte) :
    (s.setRegFlag x rc).reg VF = rc.2 :=
  State.reg_setFlag_VF _ _

theorem State.reg_setRegFlag_dest (s : State) {x : RegIx} (h : x ≠ VF) (rc : Byte × Byte) :
    (s.setRegFlag x rc).reg x = rc.1 := by
  unfold State.setRegFlag
  rw [State.reg_setFlag_other _ h, State.reg_setReg_same]

theorem State.reg_setRegFlag_other (s : State) {x y : RegIx} (hx : y ≠ x) (hf : y ≠ VF) (rc : Byte × Byte) :
    (s.setRegFlag x rc).reg y = s.reg y := by
  unfold State.setRegFlag
  rw [State.reg_setFlag_other _ hf, State.reg_setReg_other _ hx]

/-! ### Register groups -/

@[simp] theorem State.regBlock_length (s : State) (n : Nat) : (s.regBlock n).length = n := by
  simp [State.regBlock]

@[simp] theorem State.regBlock_getElem (s : State) (n k : Nat) (h : k < (s.regBlock n).length) :
    (s.regBlock n)[k] = s.reg (BitVec.ofNat 4 k) := by
  simp [State.regBlock]

/-- A group write changes the registers and nothing else. -/
theorem State.setRegBlock_frame :
    ∀ (bs : List Byte) (s : State) (k0 : Nat), s.setRegBlock k0 bs = { s with V := (s.setRegBlock k0 bs).V }
  | [], _, _ => rfl
  | b :: bs, s, k0 => by
    rw [State.setRegBlock, State.setRegBlock_frame bs (s.setReg _ b) (k0 + 1)]
    rfl

/-- A register read after a group write that starts at `k0`. -/
theorem State.reg_setRegBlock (x : RegIx) :
    ∀ (bs : List Byte) (s : State) (k0 : Nat), k0 + bs.length ≤ 16 →
      (s.setRegBlock k0 bs).reg x =
        if h : k0 ≤ x.toNat ∧ x.toNat < k0 + bs.length then bs[x.toNat - k0]'(by omega) else s.reg x
  | [], s, k0, _ => by
    rw [State.setRegBlock, dif_neg]
    simp
  | b :: bs, s, k0, h => by
    rw [List.length_cons] at h
    rw [State.setRegBlock, State.reg_setRegBlock x bs _ (k0 + 1) (by omega)]
    have hk : (BitVec.ofNat 4 k0).toNat = k0 := by
      rw [BitVec.toNat_ofNat]; exact Nat.mod_eq_of_lt (by omega)
    by_cases hx : k0 + 1 ≤ x.toNat ∧ x.toNat < k0 + 1 + bs.length
    · rw [dif_pos hx, dif_pos (by rw [List.length_cons]; omega)]
      simp only [show x.toNat - k0 = x.toNat - (k0 + 1) + 1 by omega, List.getElem_cons_succ]
    · rw [dif_neg hx]
      by_cases he : x.toNat = k0
      · have hxe : x = BitVec.ofNat 4 k0 := by rw [← BitVec.toNat_inj, hk, he]
        rw [dif_pos (by rw [List.length_cons]; omega), ← hxe, State.reg_setReg_same]
        simp only [show x.toNat - k0 = 0 by omega, List.getElem_cons_zero]
      · rw [dif_neg (by rw [List.length_cons]; omega), State.reg_setReg_other]
        intro hxe
        exact he (by rw [hxe, hk])

/-! ### The checked operand forms -/

/-- What the range check does: the body runs when the whole range is in memory (R56). -/
theorem State.withRange_pos {s : State} {len : Nat} (h : len = 0 ∨ s.I.toNat + len - 1 ≤ 0x0FFF) (op : Word)
    (body : Result) : s.withRange len op body = body := by
  unfold State.withRange State.rangeOk
  rw [decide_eq_true h, if_pos rfl]

/-- What the range check does: AddressOutOfRange and nothing else when it is not (R56). -/
theorem State.withRange_neg {s : State} {len : Nat} (h : ¬ (len = 0 ∨ s.I.toNat + len - 1 ≤ 0x0FFF)) (op : Word)
    (body : Result) :
    s.withRange len op body = .next (s.raise .addressOutOfRange op (lowestOutOfRange s.I)) := by
  unfold State.withRange State.rangeOk
  rw [decide_eq_false h, if_neg (by decide)]

/-- What the key index check does with an index in 0 to 15 (R160). -/
theorem State.withKeyIndex_pos {s : State} {x : RegIx} (h : (s.reg x).toNat ≤ 15) (op : Word) (body : Nat → Result) :
    s.withKeyIndex x op body = body (s.reg x).toNat := by
  unfold State.withKeyIndex
  rw [if_neg (by omega)]

/-- What the key index check does with an index above 15 (R160, R225). -/
theorem State.withKeyIndex_neg {s : State} {x : RegIx} (h : 15 < (s.reg x).toNat) (op : Word) (body : Nat → Result) :
    s.withKeyIndex x op body = .next (s.raise .keyIndexOutOfRange op (s.regAsWord x)) := by
  unfold State.withKeyIndex
  rw [if_pos h]

/-- `max(a, 0x1000)`, as the model computes it (R56, R91). -/
theorem lowestOutOfRange_toNat (a : Word) : (lowestOutOfRange a).toNat = max a.toNat 0x1000 := by
  unfold lowestOutOfRange memSize
  split
  · show 0x1000 = max a.toNat 0x1000
    omega
  · omega

end Sys2Proof.Machine
end

