-- ==== Sys2Proof/Laws/Cycle.lean ====
section
/-!
SUPPORT. What a cycle can do, said once: one equation for each of its four ways, and their inversion.
-/

namespace Sys2Proof.Machine

/-- The fetch reads the word at `pc` when both its bytes are in memory (R91). -/
theorem fetch_ok {s : State} (h : s.pc.toNat ≤ 0x0FFE) : fetch s = .ok s.wordAtPc := by
  unfold fetch State.wordAtPc
  rw [if_neg (by omega)]

/-- The fetch answers the lowest out-of-range address otherwise (R91). -/
theorem fetch_error {s : State} (h : 0x0FFE < s.pc.toNat) : fetch s = .error (lowestOutOfRange s.pc) := by
  unfold fetch
  rw [if_pos h]

/-- The model's `max(a, 0x1000)` is the statements'. -/
theorem lowestOutOfRange_eq (a : Word) : lowestOutOfRange a = maxWith0x1000 a := by
  rw [← BitVec.toNat_inj, lowestOutOfRange_toNat, maxWith0x1000, BitVec.toNat_ofNat]
  have := a.isLt
  omega

/-- A fault entered at the address the cycle began at leaves the old state with the fault registers set (R229). -/
theorem State.faultEntry_eq (s : State) (c : Cause) (op addr : Word) :
    s.faultEntry c s.pc op addr = s.faulted c.code op addr := rfl

/-- A raise in the execute phase puts the 2 back on `pc` (R90). -/
theorem State.raise_eq (s : State) (c : Cause) (op addr : Word) :
    s.raise c op addr = { s with pc := s.pc - 2 }.faulted c.code op addr := rfl

/-- A raise right after the advance is a fault of the state the cycle began with (R90, R229). -/
theorem State.advance_raise (s : State) (c : Cause) (op addr : Word) :
    s.advance.raise c op addr = s.faulted c.code op addr := by
  unfold State.raise State.faultEntry State.faulted State.advance
  simp only [pc_advance_retract]

/-! ### The four ways of a step -/

/-- A halted core changes nothing (R98). -/
theorem step_halted {s : State} (h : s.halted = true) : step s = .next s := by
  unfold step cycle
  rw [if_pos h]

/-- A fetch beyond the end of memory faults (R91). -/
theorem step_fetchFault {s : State} (hr : s.halted = false) (h : 0x0FFE < s.pc.toNat) :
    step s = .next (s.faulted 4 0 (maxWith0x1000 s.pc)) := by
  unfold step cycle
  rw [if_neg (by simp [hr]), fetch_error h, lowestOutOfRange_eq]
  rfl

/-- A word of no instruction faults (R93, R221). -/
theorem step_unrecognized {s : State} (hr : s.halted = false) (h : s.pc.toNat ≤ 0x0FFE) {e : DecodeError}
    (hd : decodeWord s.wordAtPc = .error e) : step s = .next (s.faulted 1 s.wordAtPc 0) := by
  unfold step cycle
  rw [if_neg (by simp [hr]), fetch_ok h]
  simp only [runWord, hd, State.advance_raise]
  rfl

/-- A decoded instruction runs on the advanced state, and the cycle is completed (R92 to R97). -/
theorem step_exec {s t : State} {i : Instr} (hr : s.halted = false) (h : s.pc.toNat ≤ 0x0FFE)
    (hd : decodeWord s.wordAtPc = .ok i) (hx : exec i s.advance = .next t) :
    step s = .next (completeCycle t) := by
  unfold step cycle
  rw [if_neg (by simp [hr]), fetch_ok h]
  simp only [runWord, hd, hx]

/-- A completed cycle ends with the tick and the key history. -/
theorem completeCycle_running {t : State} (h : t.halted = false) : completeCycle t = t.endCycle := by
  unfold completeCycle
  rw [if_neg (by simp [h])]

/-- An abandoned cycle ends with the fault entry. -/
theorem completeCycle_halted {t : State} (h : t.halted = true) : completeCycle t = t := by
  unfold completeCycle
  rw [if_pos h]

/-! ### Runs -/

/-- In any machine, a run of one step more begins with that step. -/
theorem run_succ (M : Host.Core) (k : Nat) {s t : M.State} (h : M.step s = .next t) : M.run (k + 1) s = M.run k t := by
  rw [Host.Core.run, h]

/-- The same of this machine. -/
theorem core_run_succ {s t : State} (h : step s = .next t) (k : Nat) :
    Sys2Proof.core.run (k + 1) s = Sys2Proof.core.run k t :=
  run_succ Sys2Proof.core k h

end Sys2Proof.Machine
end

