-- ==== Sys2Proof/Laws/Decode.lean ====
section
/-!
SUPPORT. The fields of an opcode word put together from its fields, and the other way; the rows of the table as
bit patterns.
-/

namespace Sys2Proof

/-! ### Fields of a word written as a concatenation (R71, R72) -/

@[simp] theorem field_op4_addr (h : BitVec 4) (nnn : BitVec 12) : (h ++ nnn : Word).extractLsb' 12 4 = h :=
  BitVec.extractLsb'_append_eq_left

@[simp] theorem field_nnn_addr (h : BitVec 4) (nnn : BitVec 12) : (h ++ nnn : Word).extractLsb' 0 12 = nnn :=
  BitVec.extractLsb'_append_eq_right

@[simp] theorem field_op4_byte (h x : BitVec 4) (kk : BitVec 8) :
    (h ++ x ++ kk : Word).extractLsb' 12 4 = h := by
  rw [BitVec.extractLsb'_append_eq_of_le (by omega)]
  exact BitVec.extractLsb'_append_eq_left

@[simp] theorem field_x_byte (h x : BitVec 4) (kk : BitVec 8) : (h ++ x ++ kk : Word).extractLsb' 8 4 = x := by
  rw [BitVec.extractLsb'_append_eq_of_le (by omega)]
  exact BitVec.extractLsb'_append_eq_right

@[simp] theorem field_kk_byte (h x : BitVec 4) (kk : BitVec 8) : (h ++ x ++ kk : Word).extractLsb' 0 8 = kk :=
  BitVec.extractLsb'_append_eq_right

@[simp] theorem field_op4_nibble (h x y n : BitVec 4) : (h ++ x ++ y ++ n : Word).extractLsb' 12 4 = h := by
  rw [BitVec.extractLsb'_append_eq_of_le (by omega), BitVec.extractLsb'_append_eq_of_le (by omega)]
  exact BitVec.extractLsb'_append_eq_left

@[simp] theorem field_x_nibble (h x y n : BitVec 4) : (h ++ x ++ y ++ n : Word).extractLsb' 8 4 = x := by
  rw [BitVec.extractLsb'_append_eq_of_le (by omega), BitVec.extractLsb'_append_eq_of_le (by omega)]
  exact BitVec.extractLsb'_append_eq_right

@[simp] theorem field_y_nibble (h x y n : BitVec 4) : (h ++ x ++ y ++ n : Word).extractLsb' 4 4 = y := by
  rw [BitVec.extractLsb'_append_eq_of_le (by omega)]
  exact BitVec.extractLsb'_append_eq_right

@[simp] theorem field_n_nibble (h x y n : BitVec 4) : (h ++ x ++ y ++ n : Word).extractLsb' 0 4 = n :=
  BitVec.extractLsb'_append_eq_right

/-! ### A word is the concatenation of its fields -/

theorem word_eq_addr (op : Word) : op.extractLsb' 12 4 ++ op.extractLsb' 0 12 = op := by
  ext k hk
  simp only [BitVec.getElem_append, BitVec.getElem_extractLsb', Nat.zero_add]
  split
  · exact (BitVec.getLsbD_eq_getElem hk)
  · rw [show 12 + (k - 12) = k by omega]; exact (BitVec.getLsbD_eq_getElem hk)

theorem word_eq_byte (op : Word) : op.extractLsb' 12 4 ++ op.extractLsb' 8 4 ++ op.extractLsb' 0 8 = op := by
  ext k hk
  simp only [BitVec.getElem_append, BitVec.getElem_extractLsb', Nat.zero_add]
  split
  · exact (BitVec.getLsbD_eq_getElem hk)
  · split
    · rw [show 8 + (k - 8) = k by omega]; exact (BitVec.getLsbD_eq_getElem hk)
    · rw [show 12 + (k - 8 - 4) = k by omega]; exact (BitVec.getLsbD_eq_getElem hk)

theorem word_eq_nibble (op : Word) :
    op.extractLsb' 12 4 ++ op.extractLsb' 8 4 ++ op.extractLsb' 4 4 ++ op.extractLsb' 0 4 = op := by
  ext k hk
  simp only [BitVec.getElem_append, BitVec.getElem_extractLsb', Nat.zero_add]
  split
  · exact (BitVec.getLsbD_eq_getElem hk)
  · split
    · rw [show 4 + (k - 4) = k by omega]; exact (BitVec.getLsbD_eq_getElem hk)
    · split
      · rw [show 8 + (k - 4 - 4) = k by omega]; exact (BitVec.getLsbD_eq_getElem hk)
      · rw [show 12 + (k - 4 - 4 - 4) = k by omega]; exact (BitVec.getLsbD_eq_getElem hk)

/-- The low byte of an address operand is the low byte of its word (R76). -/
theorem field_kk_addr (h : BitVec 4) (nnn : BitVec 12) :
    (h ++ nnn : Word).extractLsb' 0 8 = nnn.extractLsb' 0 8 :=
  BitVec.extractLsb'_append_eq_of_add_le (by omega)

theorem word_eq_bytes (op : Word) : op.extractLsb' 8 8 ++ op.extractLsb' 0 8 = op := by
  ext k hk
  simp only [BitVec.getElem_append, BitVec.getElem_extractLsb', Nat.zero_add]
  split
  · exact (BitVec.getLsbD_eq_getElem hk)
  · rw [show 8 + (k - 8) = k by omega]; exact (BitVec.getLsbD_eq_getElem hk)

/-- The bytes of a word make the word again (R52). -/
theorem opcodeOfBytes_fields (op : Word) : opcodeOfBytes (op.extractLsb' 8 8) (op.extractLsb' 0 8) = op :=
  word_eq_bytes op

/-! ### The rows of the table as bit patterns (R75) -/

theorem row_addr (h : BitVec 4) (nnn : BitVec 12) : (h ++ nnn : Word) &&& 0xF000 = h ++ 0x000#12 := by
  rw [show (0xF000 : Word) = 0xF#4 ++ 0x000#12 from rfl, BitVec.and_append]
  simp only [BitVec.and_zero]
  rw [show (0xF#4) = BitVec.allOnes 4 from rfl, BitVec.and_allOnes]

theorem row_byte (h x : BitVec 4) (kk : BitVec 8) : (h ++ x ++ kk : Word) &&& 0xF000 = h ++ 0x0#4 ++ 0x00#8 := by
  rw [show (0xF000 : Word) = 0xF#4 ++ 0x0#4 ++ 0x00#8 from rfl, BitVec.and_append, BitVec.and_append]
  simp only [BitVec.and_zero]
  rw [show (0xF#4) = BitVec.allOnes 4 from rfl, BitVec.and_allOnes]

theorem row_nibble (h x y n : BitVec 4) :
    (h ++ x ++ y ++ n : Word) &&& 0xF000 = h ++ 0x0#4 ++ 0x0#4 ++ 0x0#4 := by
  rw [show (0xF000 : Word) = 0xF#4 ++ 0x0#4 ++ 0x0#4 ++ 0x0#4 from rfl, BitVec.and_append, BitVec.and_append,
    BitVec.and_append]
  simp only [BitVec.and_zero]
  rw [show (0xF#4) = BitVec.allOnes 4 from rfl, BitVec.and_allOnes]

theorem row_selNibble (x y n : BitVec 4) :
    (0x8#4 ++ x ++ y ++ n : Word) &&& 0xF00F = 0x8#4 ++ 0x0#4 ++ 0x0#4 ++ n := by
  rw [show (0xF00F : Word) = 0xF#4 ++ 0x0#4 ++ 0x0#4 ++ 0xF#4 from rfl, BitVec.and_append, BitVec.and_append,
    BitVec.and_append]
  simp only [BitVec.and_zero]
  rw [show (0xF#4) = BitVec.allOnes 4 from rfl, BitVec.and_allOnes, BitVec.and_allOnes]

theorem row_selByte (h x : BitVec 4) (kk : BitVec 8) :
    (h ++ x ++ kk : Word) &&& 0xF0FF = h ++ 0x0#4 ++ kk := by
  rw [show (0xF0FF : Word) = 0xF#4 ++ 0x0#4 ++ 0xFF#8 from rfl, BitVec.and_append, BitVec.and_append]
  simp only [BitVec.and_zero]
  rw [show (0xF#4) = BitVec.allOnes 4 from rfl, show (0xFF#8) = BitVec.allOnes 8 from rfl, BitVec.and_allOnes,
    BitVec.and_allOnes]

end Sys2Proof
end

