-- ==== Sys2Proof/Laws/PerInstr.lean ====
section
/-!
SUPPORT. Statements about every instruction as syntax, one lemma per constructor. Family `EncodingRow`: the word
of an instruction lies in the instruction's own row of the opcode table (R75: "an opcode `op` selects row `r` when
`op AND mask(r) = match(r)`").
-/

namespace Sys2Proof.Laws.EncodingRow

/-- The word of the instruction, under its row's mask, is its row's match. -/
def Statement (i : Instr) : Prop := encode i &&& i.rowMask = i.rowMatch

theorem sys (nnn : Addr12) : Statement (.sys nnn) := row_addr 0x0#4 nnn

theorem cls (ign : Nibble) : Statement (.cls ign) := row_selByte 0x0#4 ign 0xE0#8

theorem ret (ign : Nibble) : Statement (.ret ign) := row_selByte 0x0#4 ign 0xEE#8

theorem jp (nnn : Addr12) : Statement (.jp nnn) := row_addr 0x1#4 nnn

theorem call (nnn : Addr12) : Statement (.call nnn) := row_addr 0x2#4 nnn

theorem seByte (x : RegIx) (kk : Byte) : Statement (.seByte x kk) := row_byte 0x3#4 x kk

theorem sneByte (x : RegIx) (kk : Byte) : Statement (.sneByte x kk) := row_byte 0x4#4 x kk

theorem seReg (x y : RegIx) (ign : Nibble) : Statement (.seReg x y ign) := row_nibble 0x5#4 x y ign

theorem ldByte (x : RegIx) (kk : Byte) : Statement (.ldByte x kk) := row_byte 0x6#4 x kk

theorem addByte (x : RegIx) (kk : Byte) : Statement (.addByte x kk) := row_byte 0x7#4 x kk

theorem ldReg (x y : RegIx) : Statement (.ldReg x y) := row_selNibble x y 0x0#4

theorem orReg (x y : RegIx) : Statement (.orReg x y) := row_selNibble x y 0x1#4

theorem andReg (x y : RegIx) : Statement (.andReg x y) := row_selNibble x y 0x2#4

theorem xorReg (x y : RegIx) : Statement (.xorReg x y) := row_selNibble x y 0x3#4

theorem addReg (x y : RegIx) : Statement (.addReg x y) := row_selNibble x y 0x4#4

theorem subReg (x y : RegIx) : Statement (.subReg x y) := row_selNibble x y 0x5#4

theorem shr (x y : RegIx) : Statement (.shr x y) := row_selNibble x y 0x6#4

theorem subnReg (x y : RegIx) : Statement (.subnReg x y) := row_selNibble x y 0x7#4

theorem shl (x y : RegIx) : Statement (.shl x y) := row_selNibble x y 0xE#4

theorem sneReg (x y : RegIx) (ign : Nibble) : Statement (.sneReg x y ign) := row_nibble 0x9#4 x y ign

theorem ldI (nnn : Addr12) : Statement (.ldI nnn) := row_addr 0xA#4 nnn

theorem jpV0 (nnn : Addr12) : Statement (.jpV0 nnn) := row_addr 0xB#4 nnn

theorem rnd (x : RegIx) (kk : Byte) : Statement (.rnd x kk) := row_byte 0xC#4 x kk

theorem drw (x y : RegIx) (n : Nibble) : Statement (.drw x y n) := row_nibble 0xD#4 x y n

theorem skp (x : RegIx) : Statement (.skp x) := row_selByte 0xE#4 x 0x9E#8

theorem sknp (x : RegIx) : Statement (.sknp x) := row_selByte 0xE#4 x 0xA1#8

theorem ldVxDt (x : RegIx) : Statement (.ldVxDt x) := row_selByte 0xF#4 x 0x07#8

theorem ldVxK (x : RegIx) : Statement (.ldVxK x) := row_selByte 0xF#4 x 0x0A#8

theorem ldDtVx (x : RegIx) : Statement (.ldDtVx x) := row_selByte 0xF#4 x 0x15#8

theorem ldStVx (x : RegIx) : Statement (.ldStVx x) := row_selByte 0xF#4 x 0x18#8

theorem addI (x : RegIx) : Statement (.addI x) := row_selByte 0xF#4 x 0x1E#8

theorem ldF (x : RegIx) : Statement (.ldF x) := row_selByte 0xF#4 x 0x29#8

theorem ldB (x : RegIx) : Statement (.ldB x) := row_selByte 0xF#4 x 0x33#8

theorem storeRegs (x : RegIx) : Statement (.storeRegs x) := row_selByte 0xF#4 x 0x55#8

theorem loadRegs (x : RegIx) : Statement (.loadRegs x) := row_selByte 0xF#4 x 0x65#8

end Sys2Proof.Laws.EncodingRow
end

