-- ==== Sys2Proof/Machine/Assembly.lean ====
section
/-!
DEFINITION. Canonical encodings and the printing of an instruction (spec R82, R84): "printing is outside the
machine and affects no state", and nothing of the machine uses this file.
-/

namespace Sys2Proof

/-- The `y` field an assembler emits for a shift: the second operand where one is written, else zero (R84). -/
def shiftField : Option RegIx → RegIx
  | some y => y
  | none => 0

/-- What an assembler emits for the line `SHR Vx` or `SHR Vx, Vy`: a written `Vy` is kept (R78, R84). -/
def Instr.ofShrLine (x : RegIx) (vy : Option RegIx) : Instr := .shr x (shiftField vy)

/-- What an assembler emits for the line `SHL Vx` or `SHL Vx, Vy`: a written `Vy` is kept (R78, R84). -/
def Instr.ofShlLine (x : RegIx) (vy : Option RegIx) : Instr := .shl x (shiftField vy)

/-- The instruction as an assembler emits it, its ignored fields zero (R84). The `y` of a shift stays, since "the
canonical encoding carries the `y` the programmer wrote" (R78): the line's second operand, or the zero of a line
that has none (`shiftField`). -/
def Instr.canonical : Instr → Instr
  | .cls _ => .cls 0
  | .ret _ => .ret 0
  | .seReg x y _ => .seReg x y 0
  | .sneReg x y _ => .sneReg x y 0
  | i => i

/-- One hexadecimal digit (R82: `V0` to `VF`). -/
def hexDigit (d : BitVec 4) : String :=
  ["0", "1", "2", "3", "4", "5", "6", "7", "8", "9", "A", "B", "C", "D", "E", "F"].getD d.toNat "0"

/-- A register name (R82). -/
def printReg (x : RegIx) : String := "V" ++ hexDigit x

/-- A nibble constant, in hexadecimal (R82; log entry 17). -/
def printNibble (n : Nibble) : String := "0x" ++ hexDigit n

/-- A byte constant, in two hexadecimal digits (R82). -/
def printByte (b : Byte) : String := "0x" ++ hexDigit (b.extractLsb' 4 4) ++ hexDigit (b.extractLsb' 0 4)

/-- An address constant, in three hexadecimal digits (R82). -/
def printAddr (a : Addr12) : String :=
  "0x" ++ hexDigit (a.extractLsb' 8 4) ++ hexDigit (a.extractLsb' 4 4) ++ hexDigit (a.extractLsb' 0 4)

/-- A mnemonic and its operands, separated by commas, the destination first (R82). -/
def printLine (mnemonic : String) : List String → String
  | [] => mnemonic
  | operands => mnemonic ++ " " ++ String.intercalate ", " operands

/-- The instruction in the syntax of R75's table; ignored bits do not show (R84). -/
def Instr.print : Instr → String
  | .sys nnn => printLine "SYS" [printAddr nnn]
  | .cls _ => printLine "CLS" []
  | .ret _ => printLine "RET" []
  | .jp nnn => printLine "JP" [printAddr nnn]
  | .call nnn => printLine "CALL" [printAddr nnn]
  | .seByte x kk => printLine "SE" [printReg x, printByte kk]
  | .sneByte x kk => printLine "SNE" [printReg x, printByte kk]
  | .seReg x y _ => printLine "SE" [printReg x, printReg y]
  | .ldByte x kk => printLine "LD" [printReg x, printByte kk]
  | .addByte x kk => printLine "ADD" [printReg x, printByte kk]
  | .ldReg x y => printLine "LD" [printReg x, printReg y]
  | .orReg x y => printLine "OR" [printReg x, printReg y]
  | .andReg x y => printLine "AND" [printReg x, printReg y]
  | .xorReg x y => printLine "XOR" [printReg x, printReg y]
  | .addReg x y => printLine "ADD" [printReg x, printReg y]
  | .subReg x y => printLine "SUB" [printReg x, printReg y]
  | .shr x _ => printLine "SHR" [printReg x]
  | .subnReg x y => printLine "SUBN" [printReg x, printReg y]
  | .shl x _ => printLine "SHL" [printReg x]
  | .sneReg x y _ => printLine "SNE" [printReg x, printReg y]
  | .ldI nnn => printLine "LD" ["I", printAddr nnn]
  | .jpV0 nnn => printLine "JP" ["V0", printAddr nnn]
  | .rnd x kk => printLine "RND" [printReg x, printByte kk]
  | .drw x y n => printLine "DRW" [printReg x, printReg y, printNibble n]
  | .skp x => printLine "SKP" [printReg x]
  | .sknp x => printLine "SKNP" [printReg x]
  | .ldVxDt x => printLine "LD" [printReg x, "DT"]
  | .ldVxK x => printLine "LD" [printReg x, "K"]
  | .ldDtVx x => printLine "LD" ["DT", printReg x]
  | .ldStVx x => printLine "LD" ["ST", printReg x]
  | .addI x => printLine "ADD" ["I", printReg x]
  | .ldF x => printLine "LD" ["F", printReg x]
  | .ldB x => printLine "LD" ["B", printReg x]
  | .storeRegs x => printLine "LD" ["[I]", printReg x]
  | .loadRegs x => printLine "LD" [printReg x, "[I]"]

end Sys2Proof
end

