-- ==== Sys2Proof/Tests/Slice0.lean ====
section
/-!
SUPPORT. Tests of the model, each about one step, with expected values from spec/95_test_vectors.md ("T-XX n" is row
n of its table) or from the rule it names; and for every statement with hypotheses, concrete values that meet them.
-/

namespace Sys2Proof.Tests

open Sys2Proof Sys2Proof.Machine

/-- The reset state with one input lined up: keys 3 and 5 down, random byte 0xA7. -/
def base : State := { State.reset with inputs := [{ keys := 0x0028, rnd := 0xA7 }] }

/-- The state after one step. -/
def next (s : State) : State :=
  match step s with
  | .next t => t
  | .fault f => nomatch f
  | .refused _ => s

/-- The state after one step that runs the word `w`. -/
def after (s : State) (w : Nat) : State := next (s.withFetchWord 16 w)

/-- What the fault registers record: `fcause`, `fpc`, `fop`, `faddr` (as the vectors write a fault). -/
def record (s : State) : Nat × Nat × Nat × Nat := (s.fcause.toNat, s.fpc.toNat, s.fop.toNat, s.faddr.toNat)

/-! ### Well-formedness: the one check, on terms it refuses -/

theorem test_wellFormed_sys : WellFormed (.sys 0x123) := by decide
theorem test_illFormed_sys_cls : ¬ WellFormed (.sys 0x0E0) := by decide
theorem test_illFormed_sys_cls_ignored : ¬ WellFormed (.sys 0xFE0) := by decide
theorem test_illFormed_sys_ret : ¬ WellFormed (.sys 0x0EE) := by decide

/-! ### Decoding: a word for every row, written bit by bit from the pattern of R75's table -/

theorem test_decode_sys : decode [0b00000001, 0b00100011] = .ok (.sys 0x123, []) := by decide
theorem test_decode_cls : decode [0b00000001, 0b11100000] = .ok (.cls 1, []) := by decide
theorem test_decode_ret : decode [0b00001111, 0b11101110] = .ok (.ret 15, []) := by decide
theorem test_decode_jp : decode [0b00010010, 0b00110100] = .ok (.jp 0x234, []) := by decide
theorem test_decode_call : decode [0b00100010, 0b00010000] = .ok (.call 0x210, []) := by decide
theorem test_decode_seByte : decode [0b00110001, 0b10000010] = .ok (.seByte 1 0x82, []) := by decide
theorem test_decode_sneByte : decode [0b01001110, 0b01111111] = .ok (.sneByte 14 0x7F, []) := by decide
theorem test_decode_seReg : decode [0b01010001, 0b00101001] = .ok (.seReg 1 2 9, []) := by decide
theorem test_decode_ldByte : decode [0b01101010, 0b00101111] = .ok (.ldByte 10 0x2F, []) := by decide
theorem test_decode_addByte : decode [0b01110011, 0b00100000] = .ok (.addByte 3 0x20, []) := by decide
theorem test_decode_ldReg : decode [0b10001010, 0b11110000] = .ok (.ldReg 10 15, []) := by decide
theorem test_decode_orReg : decode [0b10000001, 0b00100001] = .ok (.orReg 1 2, []) := by decide
theorem test_decode_andReg : decode [0b10000001, 0b00100010] = .ok (.andReg 1 2, []) := by decide
theorem test_decode_xorReg : decode [0b10000001, 0b00100011] = .ok (.xorReg 1 2, []) := by decide
theorem test_decode_addReg : decode [0b10000001, 0b00100100] = .ok (.addReg 1 2, []) := by decide
theorem test_decode_subReg : decode [0b10000001, 0b00100101] = .ok (.subReg 1 2, []) := by decide
theorem test_decode_shr : decode [0b10000010, 0b00010110] = .ok (.shr 2 1, []) := by decide
theorem test_decode_subnReg : decode [0b10000001, 0b00100111] = .ok (.subnReg 1 2, []) := by decide
theorem test_decode_shl : decode [0b10000010, 0b00011110] = .ok (.shl 2 1, []) := by decide
theorem test_decode_sneReg : decode [0b10010001, 0b00101001] = .ok (.sneReg 1 2 9, []) := by decide
theorem test_decode_ldI : decode [0b10100010, 0b11110000] = .ok (.ldI 0x2F0, []) := by decide
theorem test_decode_jpV0 : decode [0b10110011, 0b00000001] = .ok (.jpV0 0x301, []) := by decide
theorem test_decode_rnd : decode [0b11000011, 0b00001111] = .ok (.rnd 3 0x0F, []) := by decide
theorem test_decode_drw : decode [0b11010001, 0b00100011] = .ok (.drw 1 2 3, []) := by decide
theorem test_decode_skp : decode [0b11100101, 0b10011110] = .ok (.skp 5, []) := by decide
theorem test_decode_sknp : decode [0b11100101, 0b10100001] = .ok (.sknp 5, []) := by decide
theorem test_decode_ldVxDt : decode [0b11110010, 0b00000111] = .ok (.ldVxDt 2, []) := by decide
theorem test_decode_ldVxK : decode [0b11110001, 0b00001010] = .ok (.ldVxK 1, []) := by decide
theorem test_decode_ldDtVx : decode [0b11111000, 0b00010101] = .ok (.ldDtVx 8, []) := by decide
theorem test_decode_ldStVx : decode [0b11111000, 0b00011000] = .ok (.ldStVx 8, []) := by decide
theorem test_decode_addI : decode [0b11110100, 0b00011110] = .ok (.addI 4, []) := by decide
theorem test_decode_ldF : decode [0b11110110, 0b00101001] = .ok (.ldF 6, []) := by decide
theorem test_decode_ldB : decode [0b11110110, 0b00110011] = .ok (.ldB 6, []) := by decide
theorem test_decode_storeRegs : decode [0b11110010, 0b01010101] = .ok (.storeRegs 2, []) := by decide
theorem test_decode_loadRegs : decode [0b11110010, 0b01100101] = .ok (.loadRegs 2, []) := by decide

/-- T-DC 9: a selector of no row is refused by name. -/
theorem test_decode_refuses_group8 : decode [0x80, 0x1F] = .error (.unrecognizedOpcode 0x801F) := by decide
/-- T-DC 10. -/
theorem test_decode_refuses_groupE : decode [0xE1, 0x9F] = .error (.unrecognizedOpcode 0xE19F) := by decide
/-- T-DC 11. -/
theorem test_decode_refuses_groupF : decode [0xFF, 0x56] = .error (.unrecognizedOpcode 0xFF56) := by decide
/-- R70: an instruction is two bytes; fewer are none. -/
theorem test_decode_refuses_one_byte : decode [0x12] = .error .truncated := by decide
/-- The table's numbering of a word (the host's question). -/
theorem test_decodeTableWord : decodeTableWord 16 0xD123 = some (.drw 1 2 3) := by decide

/-- R84: the words of `SHR V2, V1` and of `SHR V2`. -/
theorem test_assemble_shr :
    encode (Instr.ofShrLine 2 (some 1)).canonical = 0x8216 ∧ encode (Instr.ofShrLine 2 none).canonical = 0x8206 := by
  decide
/-- R84, with the word of T-AR 48: `SHL V2, V1` and `SHL V2`. -/
theorem test_assemble_shl :
    encode (Instr.ofShlLine 2 (some 1)).canonical = 0x821E ∧ encode (Instr.ofShlLine 2 none).canonical = 0x820E := by
  decide
/-- R76, R77, R84: the canonical words of `CLS`, `RET`, `SE V0, V1` and `SNE V0, V1`. -/
theorem test_canonical :
    encode (Instr.cls 1).canonical = 0x00E0 ∧ encode (Instr.ret 15).canonical = 0x00EE ∧
      encode (Instr.seReg 0 1 15).canonical = 0x5010 ∧ encode (Instr.sneReg 0 1 7).canonical = 0x9010 := by decide
/-- The syntax of T-CF 26 and T-FM 21. -/
theorem test_print :
    (Instr.jpV0 0x300).print = "JP V0, 0x300" ∧ (Instr.loadRegs 2).print = "LD V2, [I]" ∧
      (Instr.cls 1).print = "CLS" := by decide

/-! ### Fetch and faults (T-DC) -/

/-- T-DC 2: big-endian fetch. -/
theorem test_fetch_big_endian :
    ((next (base.storeBytes 0x200 [0x61, 0x77])).reg 1, (next (base.storeBytes 0x200 [0x61, 0x77])).pc) =
      (0x77, 0x202) := by decide
/-- T-DC 3: an odd `pc` is fetched from like any other. -/
theorem test_fetch_odd : (after { base with pc := 0x201 } 0x6177).pc = 0x203 := by decide
/-- T-DC 12: the last word of memory is a legal fetch. -/
theorem test_fetch_last : (next { base with pc := 0x0FFE }).pc = 0x1000 := by decide
/-- T-DC 13. -/
theorem test_fetch_fault :
    record (next { base with pc := 0x0FFF }) = (4, 0x0FFF, 0, 0x1000) ∧
      (next { base with pc := 0x0FFF }).pc = 0x0FFF := by decide
/-- T-DC 15. -/
theorem test_fetch_fault_high : record (next { base with pc := 0x10FE }) = (4, 0x10FE, 0, 0x10FE) := by decide
/-- T-DC 11: UnrecognizedOpcode. -/
theorem test_unrecognized : record (after base 0xFFFF) = (1, 0x200, 0xFFFF, 0) := by decide
/-- T-TM 19: a faulting cycle does not tick. -/
theorem test_fault_no_tick :
    (after { base with tacc := 440, DT := 5 } 0xFFFF).tacc = 440 ∧
      (after { base with tacc := 440, DT := 5 } 0xFFFF).DT = 5 := by decide

/-! ### Control flow (T-CF) -/

/-- T-CF 1. -/
theorem test_sys : (after base 0x0123).pc = 0x202 ∧ (after base 0x0123).V = base.V := by decide
/-- T-CF 6: two deep, and bits 11 to 8 ignored. -/
theorem test_ret :
    (after { base with sp := 2, stack := (base.stack.set 0 0x206).set 1 0x333 } 0x0FEE).pc = 0x333 ∧
      (after { base with sp := 2, stack := (base.stack.set 0 0x206).set 1 0x333 } 0x0FEE).sp = 1 := by decide
/-- T-CF 4: StackUnderflow. -/
theorem test_ret_underflow : record (after base 0x00EE) = (3, 0x200, 0x00EE, 0) := by decide
/-- T-CF 9: an odd target is kept. -/
theorem test_jp : (after base 0x1201).pc = 0x201 := by decide
/-- T-CF 12: the last free slot. -/
theorem test_call :
    (after { base with pc := 0x204, sp := 15 } 0x2210).stack[15] = 0x206 ∧
      (after { base with pc := 0x204, sp := 15 } 0x2210).sp = 16 ∧
      (after { base with pc := 0x204, sp := 15 } 0x2210).pc = 0x210 := by decide
/-- T-CF 13: StackOverflow. -/
theorem test_call_overflow :
    record (after { base with pc := 0x204, sp := 16 } 0x2210) = (2, 0x204, 0x2210, 0) := by decide
/-- T-CF 15. -/
theorem test_seByte_equal : (after { base with pc := 0x208 } 0x3100).pc = 0x20C := by decide
/-- T-CF 16. -/
theorem test_seByte_differs : (after ({ base with pc := 0x208 }.setReg 1 1) 0x3100).pc = 0x20A := by decide
/-- T-CF 18. -/
theorem test_sneByte_differs : (after ({ base with pc := 0x208 }.setReg 1 3) 0x4100).pc = 0x20C := by decide
/-- T-CF 19. -/
theorem test_sneByte_equal : (after { base with pc := 0x208 } 0x4100).pc = 0x20A := by decide
/-- T-DC 7: the low nibble is ignored. -/
theorem test_seReg_equal : (after ({ base with pc := 0x300 }.setReg 0 7 |>.setReg 1 7) 0x501F).pc = 0x304 := by decide
/-- T-CF 21. -/
theorem test_seReg_differs : (after ({ base with pc := 0x300 }.setReg 0 7 |>.setReg 1 8) 0x5010).pc = 0x302 := by decide
/-- T-DC 8. -/
theorem test_sneReg_differs : (after ({ base with pc := 0x300 }.setReg 0 7 |>.setReg 1 8) 0x9017).pc = 0x304 := by decide
/-- T-CF 25. -/
theorem test_sneReg_equal : (after (base.setReg 4 1) 0x9440).pc = 0x202 := by decide
/-- T-CF 27: the sum is not reduced to 12 bits. -/
theorem test_jpV0 : (after (base.setReg 0 0xFF) 0xBFFF).pc = 0x10FE := by decide
/-- T-CF 30: the offset register is V0. -/
theorem test_jpV0_register : (after (base.setReg 0 1 |>.setReg 3 0x10) 0xB300).pc = 0x301 := by decide

/-! ### Loads, logic, arithmetic (T-AR) -/

/-- V0, V1 and VF after the word, from a state that holds them. -/
def arith (v0 v1 vf : Byte) (w : Nat) : Byte × Byte × Byte :=
  let t := after ((base.setReg 0 v0).setReg 1 v1 |>.setReg VF vf) w
  (t.reg 0, t.reg 1, t.reg VF)

/-- T-AR 1. -/
theorem test_ldByte : (after base 0x6A2F).reg 10 = 0x2F := by decide
/-- T-AR 3, on V1: the sum wraps and VF stays. -/
theorem test_addByte : arith 0 0xF0 0 0x7120 = (0, 0x10, 0) := by decide
/-- T-AR 6: under `ADDI_WRITES_VF` the flag is written last. -/
theorem test_addByte_flag :
    (after ({ base with params := { cycleRate := 500, addiWritesVf := true } }.setReg VF 0xFF) 0x7F01).reg VF = 1 := by
  decide
/-- T-AR 9. -/
theorem test_ldReg : arith 0 7 0 0x8010 = (7, 7, 0) := by decide
/-- T-AR 12: VF is not cleared. -/
theorem test_orReg : arith 0xF0 0x0F 1 0x8011 = (0xFF, 0x0F, 1) := by decide
/-- T-AR 13. -/
theorem test_andReg : arith 0xF3 0x3C 1 0x8012 = (0x30, 0x3C, 1) := by decide
/-- T-AR 14. -/
theorem test_xorReg : arith 0xFF 0x0F 1 0x8013 = (0xF0, 0x0F, 1) := by decide
/-- T-AR 17. -/
theorem test_addReg : arith 0xFF 1 0 0x8014 = (0, 1, 1) := by decide
/-- T-AR 23: the old VF is the addend. -/
theorem test_addReg_from_flag : arith 0xFF 0 1 0x80F4 = (0, 0, 1) := by decide
/-- T-AR 27. -/
theorem test_subReg : arith 0x05 0x0A 1 0x8015 = (0xFB, 0x0A, 0) := by decide
/-- T-AR 29: equal operands, no borrow. -/
theorem test_subReg_equal : arith 7 7 0 0x8015 = (0, 7, 1) := by decide
/-- T-AR 43, on V0: the bit shifted out is not recorded. -/
theorem test_shr : arith 1 0 0xAA 0x8006 = (0, 0, 0xAA) := by decide
/-- T-AR 44, on V0: `Vy` is ignored. -/
theorem test_shr_ignores_y : arith 0xFF 0x10 0 0x8016 = (0x7F, 0x10, 0) := by decide
/-- T-AR 36. -/
theorem test_subnReg : arith 0x05 0x0A 0 0x8017 = (0x05, 0x0A, 1) := by decide
/-- T-AR 37. -/
theorem test_subnReg_borrow : arith 0x0A 0x05 1 0x8017 = (0xFB, 0x05, 0) := by decide
/-- T-AR 48, on V0: `Vy` is ignored and VF kept. -/
theorem test_shl : arith 0x40 0xFF 7 0x801E = (0x80, 0xFF, 7) := by decide
/-- T-AR 47, on V0: truncated to eight bits. -/
theorem test_shl_truncates : arith 0xFF 0 1 0x800E = (0xFE, 0, 1) := by decide
/-- T-AR 50. -/
theorem test_ldI : (after { base with I := 0xFFFF } 0xA2F0).I = 0x2F0 := by decide
/-- T-AR 53: no carry out of bit 11. -/
theorem test_addI :
    (after ({ base with I := 0x0FFF }.setReg 4 1) 0xF41E).I = 0x1000 ∧
      (after ({ base with I := 0x0FFF }.setReg 4 1) 0xF41E).reg VF = 0 := by decide
/-- T-AR 55: the sum is exactly 65536. -/
theorem test_addI_carry :
    (after ({ base with I := 0xFF01 }.setReg 4 0xFF) 0xF41E).I = 0 ∧
      (after ({ base with I := 0xFF01 }.setReg 4 0xFF) 0xF41E).reg VF = 1 := by decide
/-- T-AR 58. -/
theorem test_rnd : (after base 0xC30F).reg 3 = 0x07 := by decide

/-! ### Keyboard and timers (T-KB, T-TM) -/

/-- T-KB 7, with key 3: a level, not an edge. -/
theorem test_skp :
    (after ({ base with kprev := 0x0028 }.setReg 5 3) 0xE59E).pc = 0x204 := by decide
/-- T-KB 6: KeyIndexOutOfRange, and the key history stays. -/
theorem test_skp_fault :
    record (after ({ base with pc := 0x220 }.setReg 5 0x10) 0xE59E) = (5, 0x220, 0xE59E, 0x10) ∧
      (after ({ base with pc := 0x220 }.setReg 5 0x10) 0xE59E).kprev = 0 := by decide
/-- T-KB 8, with other keys down: key 10 is up. -/
theorem test_sknp : (after ({ base with pc := 0x220 }.setReg 5 0x0A) 0xE5A1).pc = 0x224 := by decide
/-- T-KB 10. -/
theorem test_sknp_fault :
    record (after ({ base with pc := 0x220 }.setReg 5 0xFF) 0xE5A1) = (5, 0x220, 0xE5A1, 0xFF) := by decide
/-- T-KB 14: key 3 was already down, key 5 is new. -/
theorem test_ldVxK :
    (after { base with pc := 0x204, kprev := 0x0008 } 0xF10A).reg 1 = 5 ∧
      (after { base with pc := 0x204, kprev := 0x0008 } 0xF10A).pc = 0x206 := by decide
/-- T-KB 13: held keys are no transition; the cycle counts. -/
theorem test_ldVxK_stall :
    (after ({ base with pc := 0x204, kprev := 0x0028 }.setReg 1 9) 0xF10A).reg 1 = 9 ∧
      (after ({ base with pc := 0x204, kprev := 0x0028 }.setReg 1 9) 0xF10A).pc = 0x204 ∧
      (after ({ base with pc := 0x204, kprev := 0x0028 }.setReg 1 9) 0xF10A).tacc = 60 := by decide
/-- T-TM 2: read before the tick. -/
theorem test_ldVxDt :
    (after { base with DT := 59, tacc := 440 } 0xF207).reg 2 = 0x3B ∧
      (after { base with DT := 59, tacc := 440 } 0xF207).DT = 58 := by decide
/-- T-TM 4: load, then tick. -/
theorem test_ldDtVx :
    (after ({ base with tacc := 440 }.setReg 0 0x3C) 0xF015).DT = 59 ∧
      (after ({ base with tacc := 440 }.setReg 0 0x3C) 0xF015).tacc = 0 := by decide
/-- T-TM 5: no wrap below zero. -/
theorem test_ldDtVx_zero : (after { base with tacc := 440 } 0xF015).DT = 0 := by decide
/-- T-TM 7. -/
theorem test_ldStVx : (after (base.setReg 0 5) 0xF018).ST = 5 := by decide
/-- T-TM 11 and 12: the phase at which the tick comes. -/
theorem test_tick_phase :
    (after { base with DT := 3, tacc := 439 } 0).DT = 3 ∧ (after { base with DT := 3, tacc := 439 } 0).tacc = 499 ∧
      (after { base with DT := 3, tacc := 499 } 0).DT = 2 ∧ (after { base with DT := 3, tacc := 499 } 0).tacc = 59 := by
  decide

/-! ### Display (T-DP) -/

/-- A sprite, where it lies, and the coordinates in V1 and V2. -/
def sprites (a : Nat) (bs : List Byte) (x y : Byte) : State :=
  ({ base with I := BitVec.ofNat 16 a }.storeBytes a bs).setReg 1 x |>.setReg 2 y

/-- T-DP 1: `CLS`. -/
theorem test_cls :
    (after { base with fb := (base.fb.setByte 0 0xFF).setByte 255 1 } 0x00E0).fb = base.fb ∧
      (after { base with fb := (base.fb.setByte 0 0xFF).setByte 255 1 } 0x00E0).dirty = true := by decide
/-- T-DP 4: horizontal wrap, vertical clip. -/
theorem test_drw :
    (after (sprites 0x210 [0xF0, 0x80, 0xFF] 0x3E 0x1E) 0xD123).fb =
        ((base.fb.setByte 247 0x03).setByte 240 0xC0).setByte 255 0x02 ∧
      (after (sprites 0x210 [0xF0, 0x80, 0xFF] 0x3E 0x1E) 0xD123).reg VF = 0 := by decide
/-- T-DP 16: one pixel cleared, one set. -/
theorem test_drw_collision :
    (after { sprites 0x300 [0xC0] 0 0 with fb := base.fb.setByte 0 0x80 } 0xD121).fb.byte 0 = 0x40 ∧
      (after { sprites 0x300 [0xC0] 0 0 with fb := base.fb.setByte 0 0x80 } 0xD121).reg VF = 1 := by decide
/-- T-DP 11: AddressOutOfRange although the row would be clipped. -/
theorem test_drw_fault : record (after (sprites 0xFFF [0x80] 0 0x1F) 0xD122) = (4, 0x200, 0xD122, 0x1000) := by decide
/-- T-DP 19: the byte form. -/
theorem test_drw_bytes :
    (base.fb.drawBytes 5 2 [0xAB]).fb.byte 16 = 0x05 ∧ (base.fb.drawBytes 5 2 [0xAB]).fb.byte 17 = 0x58 := by decide

/-! ### Font address, BCD, block transfers (T-FM) -/

/-- T-FM 2: the low nibble only. -/
theorem test_ldF : (after (base.setReg 0 0x1A) 0xF029).I = 0x32 := by decide
/-- T-FM 10: the last three cells. -/
theorem test_ldB :
    ((after ({ base with I := 0xFFD }.setReg 0 0xFF) 0xF033).mem.readBlock 0xFFD 3) = [2, 5, 5] := by decide
/-- T-FM 13: no wrap past 0xFFFF. -/
theorem test_ldB_fault :
    record (after ({ base with I := 0xFFFF }.setReg 0 0x7B) 0xF033) = (4, 0x200, 0xF033, 0xFFFF) := by decide
/-- T-FM 15: V3 is not stored and `I` stays. -/
theorem test_storeRegs :
    (after ((({ base with I := 0x400 }.setReg 0 0x11).setReg 1 0x22).setReg 2 0x33 |>.setReg 3 0x44) 0xF255).mem.readBlock
        0x400 4 = [0x11, 0x22, 0x33, 0] ∧
      (after { base with I := 0x400 } 0xF255).I = 0x400 := by decide
/-- T-FM 17: all or nothing. -/
theorem test_storeRegs_fault :
    record (after ({ base with I := 0xFFF }.setReg 0 0xAA) 0xF155) = (4, 0x200, 0xF155, 0x1000) ∧
      (after ({ base with I := 0xFFF }.setReg 0 0xAA) 0xF155).readByte 0xFFF = 0 := by decide
/-- T-FM 21. -/
theorem test_loadRegs :
    (after (({ base with I := 0x300 }.storeBytes 0x300 [2, 5, 4, 9]).setReg 3 0x77) 0xF265).regBlock 4 =
      [2, 5, 4, 0x77] := by decide
/-- T-FM 24: the font as reset leaves it. -/
theorem test_loadRegs_font :
    (after base 0xFF65).regBlock 16 =
      [0xF0, 0x90, 0x90, 0x90, 0xF0, 0x20, 0x60, 0x20, 0x20, 0x70, 0xF0, 0x10, 0xF0, 0x80, 0xF0, 0xF0] := by decide

/-! ### Memory and the ports -/

/-- A write of what an unlisted cell reads as removes the cell. -/
theorem test_memory_canonical : ((Memory.write [] 0x300 7).write 0x300 0) = [] := by decide
/-- R233: 256 bytes in the layout of R28. -/
theorem test_fbOut : ({ base with fb := base.fb.setByte 247 3 } : State).fbOut[247]? = some 3 := by decide
/-- R33: the host's `dirty_clear`. -/
theorem test_dirtyClear : (after base 0x00E0).dirtyClear.dirty = false := by decide

/-! ### Witnesses: values that meet the hypotheses of each statement that has any, clause by clause -/

/-- `base` with the word `w` at `pc`. -/
def holding (w : Nat) : State := base.withFetchWord 16 w

theorem witness_DecodeInvertsEncode : WellFormed (.sys 0xFFF) ∧ WellFormed (.loadRegs 15) := by decide
theorem witness_DecodedWordReencodes : decodeWord 0x821E = .ok (.shl 2 1) := by decide
/-- Words of the three classes of R79, and words beside them, at the edges of the selectors' ranges. -/
theorem witness_UnrecognizedWordsExactly :
    (IllegalWord 0x8008 ∧ IllegalWord 0x8FFF ∧ IllegalWord 0xE09D ∧ IllegalWord 0xF066) ∧
      ¬ IllegalWord 0x8007 ∧ ¬ IllegalWord 0x800E ∧ ¬ IllegalWord 0xE09E ∧ ¬ IllegalWord 0xF065 ∧
      ¬ IllegalWord 0x7FFF ∧ ¬ IllegalWord 0x9000 :=
  ⟨⟨by decide, by decide, by decide, by decide⟩, by decide, by decide, by decide, by decide, by decide, by decide⟩
theorem witness_IgnoredBitsHaveNoEffect : ({ base with sp := 1 } : State).sp.val ≠ 0 := by decide

/-- At both ends of the range of addresses a fetch succeeds at. -/
theorem witness_StepRunsDecodedInstruction :
    (base.halted = false ∧ base.pc.toNat ≤ 0x0FFE ∧ decodeWord base.wordAtPc = .ok (.sys 0)) ∧
      ({ base with pc := 0x0FFE } : State).pc.toNat ≤ 0x0FFE ∧
      decodeWord ({ base with pc := 0x0FFE } : State).wordAtPc = .ok (.sys 0) := by decide
/-- A fetch fault at 0x0FFF, a due fault at 0x0FFE, and a word that is due none. -/
theorem witness_FaultsAreExactAndPrecise :
    base.halted = false ∧ 0x0FFE < ({ base with pc := 0x0FFF } : State).pc.toNat ∧
      (let s := ({ base with pc := 0x0FFE } : State).withFetchWord 16 0x00EE
       s.pc.toNat ≤ 0x0FFE ∧ s.faultDue s.wordAtPc = some (3, 0)) ∧
      (holding 0x1234).faultDue (holding 0x1234).wordAtPc = none := by decide
/-- Each fault that an instruction can be due, where its range begins, and no fault one below. -/
theorem witness_faultDue_boundaries :
    ({ base with sp := 16 } : State).faultDue 0x2000 = some (2, 0) ∧
      ({ base with sp := 15 } : State).faultDue 0x2000 = none ∧
      ({ base with I := 0x0FFE } : State).faultDue 0xF033 = some (4, 0x1000) ∧
      ({ base with I := 0x0FFD } : State).faultDue 0xF033 = none ∧
      ({ base with I := 0xFFFF } : State).faultDue 0xD120 = none ∧
      (base.setReg 5 16).faultDue 0xE59E = some (5, 16) ∧ (base.setReg 5 15).faultDue 0xE59E = none := by decide
theorem witness_HaltedCoreStaysPut : (after base 0xFFFF).halted = true := by decide
/-- A cycle that does not tick and one that does. -/
theorem witness_CompletedCycleBookkeeping :
    base.halted = false ∧ step (holding 0x6177) = .next (next (holding 0x6177)) ∧
      (next (holding 0x6177)).halted = false ∧ ¬ base.params.cycleRate ≤ base.tacc + 60 ∧
      base.params.cycleRate ≤ ({ base with tacc := 440 } : State).tacc + 60 ∧
      (after { base with tacc := 440 } 0x6177).halted = false :=
  ⟨by decide, rfl, by decide, by decide, by decide, by decide⟩
/-- A load of each timer in a cycle that ticks. -/
theorem witness_TimersStepOnTicksOnly :
    (let s := ({ base with tacc := 440 } : State).withFetchWord 16 0xF015
     s.halted = false ∧ (next s).halted = false ∧ decodeWord s.wordAtPc = .ok (.ldDtVx 0)) ∧
      decodeWord (holding 0xF018).wordAtPc = .ok (.ldStVx 0) ∧ (after base 0xF018).halted = false := by decide
theorem witness_TickCadenceOverRuns :
    base.halted = false ∧ base.TimerPhaseOk ∧ base.tacc = 0 ∧ Sys2Proof.core.run 1 base = .next (next base) ∧
      (next base).halted = false :=
  ⟨by decide, by unfold State.TimerPhaseOk; decide, by decide, rfl, by decide⟩

/-- Both kinds of store, at their last byte. -/
theorem witness_MemoryWrittenOnlyByStores :
    (let s := ({ base with I := 0xFFD } : State).setReg 0 255 |>.withFetchWord 16 0xF033
     (next s).readByte 0xFFF ≠ s.readByte 0xFFF) ∧
      (let s := ({ base with I := 0xFF0 } : State).setReg 15 255 |>.withFetchWord 16 0xFF55
       (next s).readByte 0xFFF ≠ s.readByte 0xFFF) := by decide
/-- A change of each kind, by each writer. -/
theorem witness_SpecialStateHasFewWriters :
    (after base 0x2210).stack ≠ base.stack ∧ (after base 0x2210).sp ≠ base.sp ∧
      (after { base with sp := 1 } 0x00EE).sp.val ≠ 1 ∧
      (after { base with fb := base.fb.setByte 0 1 } 0x00E0).fb ≠ base.fb.setByte 0 1 ∧
      (after base 0xD005).fb ≠ base.fb ∧ (after base 0xA123).I ≠ base.I ∧
      (after (base.setReg 0 1) 0xF01E).I ≠ base.I ∧ (after (base.setReg 0 1) 0xF029).I ≠ base.I ∧
      ({ base with dirty := true } : State).dirty = true := by decide
/-- A flag writer, the immediate add under its parameter, and an ordinary destination. -/
theorem witness_VfHasFewWriters :
    (after (base.setReg 0 0x80) 0x8004).reg VF ≠ base.reg VF ∧
      (after ({ base with params := { cycleRate := 500, addiWritesVf := true } }.setReg 0 1) 0x70FF).reg VF ≠
        base.reg VF ∧
      (after base 0x6F01).reg VF ≠ base.reg VF := by decide
theorem witness_RandomByteReachesOnlyRnd :
    ∀ x kk, decodeWord (holding 0x1234).wordAtPc ≠ .ok (.rnd x kk) := by
  have e : decodeWord (holding 0x1234).wordAtPc = .ok (.jp 0x234) := by decide
  intro x kk h
  rw [e] at h
  cases h
theorem witness_KeysReachOnlyKeyInstructions :
    (∀ x, decodeWord (holding 0x1234).wordAtPc ≠ .ok (.skp x) ∧
      decodeWord (holding 0x1234).wordAtPc ≠ .ok (.sknp x) ∧
      decodeWord (holding 0x1234).wordAtPc ≠ .ok (.ldVxK x)) ∧
    (∃ t, strobe 0x0001 0 (holding 0x1234) = .next t) ∧ ∃ t, strobe 0x8000 0 (holding 0x1234) = .next t := by
  have e : decodeWord (holding 0x1234).wordAtPc = .ok (.jp 0x234) := by decide
  refine ⟨fun x => ⟨fun h => ?_, fun h => ?_, fun h => ?_⟩, ⟨_, rfl⟩, ⟨_, rfl⟩⟩
  all_goals
    rw [e] at h
    cases h
theorem witness_KprevReadOnlyByKeyWait :
    (∀ x, decodeWord (holding 0x1234).wordAtPc ≠ .ok (.ldVxK x)) ∧
      step (holding 0x1234) = .next (next (holding 0x1234)) ∧ (next (holding 0x1234)).halted = false := by
  have e : decodeWord (holding 0x1234).wordAtPc = .ok (.jp 0x234) := by decide
  refine ⟨fun x h => ?_, rfl, by decide⟩
  rw [e] at h
  cases h
/-- Two states that differ in a dead slot, one below which `RET` pops. -/
theorem witness_DeadStackSlotsAreUnobservable :
    State.AgreeBelowSp { holding 0x00EE with sp := 1 } { holding 0x00EE with sp := 1, stack := base.stack.set 1 7 } ∧
      step { holding 0x00EE with sp := 1 } = .next (next { holding 0x00EE with sp := 1 }) :=
  ⟨⟨rfl, by decide⟩, rfl⟩
theorem witness_SoundTimerAndDirtyAreUnread : step (holding 0x00E0) = .next (next (holding 0x00E0)) := rfl

theorem witness_SysIsNoOp :
    (holding 0x0123).halted = false ∧ (holding 0x0123).pc.toNat ≤ 0x0FFE ∧
      decodeWord (holding 0x0123).wordAtPc = .ok (.sys 0x123) := by decide
/-- One address, sixteen, and none. -/
theorem witness_RetPopsOrUnderflows :
    ({ base with sp := 1 } : State).sp.val ≠ 0 ∧ ({ base with sp := 16 } : State).sp.val ≠ 0 ∧ base.sp.val = 0 := by
  decide
/-- The last free slot, and none free. -/
theorem witness_CallPushesOrOverflows :
    ({ base with sp := 15 } : State).sp.val ≠ 16 ∧ ({ base with sp := 16 } : State).sp.val = 16 := by decide
theorem witness_CallThenRetReturns : ({ base with sp := 15 } : State).sp.val ≠ 16 := by decide
/-- With the parameter false and with it true, and a register below VF. -/
theorem witness_AddByteResult :
    (14 : RegIx) ≠ VF ∧ base.params.addiWritesVf = false ∧
      ({ base with params := { cycleRate := 60, addiWritesVf := true } } : State).params.addiWritesVf = true := by decide
theorem witness_AddRegResult : (14 : RegIx) ≠ VF ∧ (0 : RegIx) ≠ 14 ∧ (0 : RegIx) ≠ VF := by decide
theorem witness_LoadsAndLogicWriteDestinationOnly :
    (Instr.xorReg 15 0, base.reg 15 ^^^ base.reg 0) ∈
      [(Instr.ldByte 15 7, (7 : Byte)), (.ldReg 15 0, base.reg 0), (.orReg 15 0, base.reg 15 ||| base.reg 0),
       (.andReg 15 0, base.reg 15 &&& base.reg 0), (.xorReg 15 0, base.reg 15 ^^^ base.reg 0)] ∧
      (14 : RegIx) ≠ 15 := by decide
theorem witness_SubtractResults :
    (Instr.subnReg 14 15, base.reg 15, base.reg 14) ∈
      [(Instr.subReg 14 15, base.reg 14, base.reg 15), (.subnReg 14 15, base.reg 15, base.reg 14)] ∧
      (14 : RegIx) ≠ VF := by decide
theorem witness_ShiftResults :
    (Instr.shl 15 0, (base.reg 15).toNat * 2 % 256) ∈
      [(Instr.shr 15 0, (base.reg 15).toNat / 2), (.shl 15 0, (base.reg 15).toNat * 2 % 256)] ∧
      (14 : RegIx) ≠ 15 := by decide
theorem witness_AddIResult : (14 : RegIx) ≠ VF := by decide
theorem witness_RndMasksRandomByte : 7 < 8 ∧ (14 : RegIx) ≠ 15 := by decide

/-- The last key index and the first value that is none. -/
theorem witness_KeySkipsTestSampleOrFault :
    ((base.setReg 0 15).reg 0).toNat ≤ 15 ∧ 15 < ((base.setReg 0 16).reg 0).toNat := by decide
/-- Keys 3 and 5 go down: 3 is the lowest. -/
theorem witness_KeyWaitTakesLowestNewKey :
    base.K.getLsbD (3 : Fin 16).val = true ∧ base.kprev.getLsbD (3 : Fin 16).val = false ∧
      ∀ j : Fin 16, j < 3 → base.K.getLsbD j.val = true → base.kprev.getLsbD j.val = true := by decide
/-- Keys 3 and 5 held. -/
theorem witness_KeyWaitStallsWithoutNewKey :
    let s := { holding 0xF10A with kprev := 0x0028 }
    (∀ k : Fin 16, s.K.getLsbD k.val = true → s.kprev.getLsbD k.val = true) ∧
      s.halted = false ∧ s.pc.toNat ≤ 0x0FFE ∧ decodeWord s.wordAtPc = .ok (.ldVxK 1) := by decide
theorem witness_TimerInstructionsMoveByte : (14 : RegIx) ≠ 15 := by decide

/-- No rows with `I` out of range, the last sprite in range, and the first out of it. -/
theorem witness_DrwDrawsOrFaults :
    (0 : Nibble).toNat = 0 ∧ ({ base with I := 0x0FF1 } : State).I.toNat + (15 : Nibble).toNat ≤ 0x1000 ∧
      0 < (15 : Nibble).toNat ∧ 0x1000 < ({ base with I := 0x0FF2 } : State).I.toNat + (15 : Nibble).toNat ∧
      (startColumn 255).val = (255 : Byte).toNat % 64 ∧ (startRow 255).val = (255 : Byte).toNat % 32 ∧
      (14 : RegIx) ≠ VF := by decide
/-- The last `I` in range, the first out of it, in a canonical memory. -/
theorem witness_LdBStoresDigitsOrFaults :
    ({ base with I := 0x0FFD } : State).I.toNat ≤ 0x0FFD ∧ ({ base with I := 0x0FFD } : State).MemCanonical ∧
      0x0FFD < ({ base with I := 0x0FFE } : State).I.toNat :=
  ⟨by decide, by unfold State.MemCanonical; decide, by decide⟩
theorem witness_StoreRegsStoresPrefixOrFaults :
    ({ base with I := 0x0FF0 } : State).I.toNat + (15 : RegIx).toNat ≤ 0x0FFF ∧
      ({ base with I := 0x0FF0 } : State).MemCanonical ∧ (0 : RegIx) ≤ 15 ∧
      0x0FFF < ({ base with I := 0x0FF1 } : State).I.toNat + (15 : RegIx).toNat :=
  ⟨by decide, by unfold State.MemCanonical; decide, by decide, by decide⟩
theorem witness_LoadRegsLoadsPrefixOrFaults :
    ({ base with I := 0x0FFF } : State).I.toNat + (0 : RegIx).toNat ≤ 0x0FFF ∧ (0 : RegIx) ≤ 0 ∧ (0 : RegIx) < 1 ∧
      0x0FFF < ({ base with I := 0x1000 } : State).I.toNat + (0 : RegIx).toNat := by decide
theorem witness_MemoryReadsLastWrite : Memory.wf [(0x300, 7)] = true ∧ 0xFFF < 4096 := by decide

theorem witness_StepKeepsMemoryCanonical :
    (holding 0xF033).MemCanonical ∧ step (holding 0xF033) = .next (next (holding 0xF033)) :=
  ⟨by unfold State.MemCanonical; decide, rfl⟩
theorem witness_StepKeepsTimerPhase :
    ({ holding 0 with tacc := 499 } : State).TimerPhaseOk ∧
      step { holding 0 with tacc := 499 } = .next (next { holding 0 with tacc := 499 }) :=
  ⟨by unfold State.TimerPhaseOk; decide, rfl⟩
theorem witness_StepKeepsPcBounded :
    State.PcBounded { holding 0x00EE with sp := 1, stack := base.stack.set 0 0x1000 } ∧
      step { holding 0x00EE with sp := 1, stack := base.stack.set 0 0x1000 } =
        .next (next { holding 0x00EE with sp := 1, stack := base.stack.set 0 0x1000 }) :=
  ⟨by unfold State.PcBounded; decide, rfl⟩
/-- A running state and a halted one. -/
theorem witness_StepKeepsFaultRecord :
    (holding 0xFFFF).FaultRecordOk ∧ (next (holding 0xFFFF)).FaultRecordOk ∧
      step (holding 0xFFFF) = .next (next (holding 0xFFFF)) :=
  ⟨by unfold State.FaultRecordOk; decide, by unfold State.FaultRecordOk; decide, rfl⟩
/-- The longest ROM and the least rate. -/
theorem witness_LaunchLeavesResetState :
    (List.replicate 3584 (0 : Byte)).length ≤ 3584 ∧ 60 ≤ ({ cycleRate := 60, addiWritesVf := true } : Params).cycleRate :=
  ⟨by rw [List.length_replicate], by decide⟩
/-- A ROM one byte too long, and a rate one too low. -/
theorem witness_LaunchRefusesBadParameters :
    3584 < (List.replicate 3585 (0 : Byte)).length ∧ ([] : List Byte).length ≤ 3584 ∧
      ({ cycleRate := 59, addiWritesVf := false } : Params).cycleRate < 60 :=
  ⟨by rw [List.length_replicate]; decide, by decide, by decide⟩

end Sys2Proof.Tests
end

