-- ==== Sys2Proof/Proofs/EightBitLaws.lean ====
section
/-!
The 8-bit addition and subtraction laws of R110 and R111 as facts about the natural values of the result and of the
flag, one lemma per component.
-/

namespace Sys2Proof.Machine

@[simp] theorem add8_fst_toNat (a b : Byte) : (add8 a b).1.toNat = (a.toNat + b.toNat) % 256 :=
  BitVec.toNat_add a b

@[simp] theorem add8_snd_toNat (a b : Byte) :
    (add8 a b).2.toNat = if a.toNat + b.toNat ≥ 256 then 1 else 0 := by
  simp [add8]

/-- The two's-complement form of the difference; `sub8_fst_toNat` splits it by the borrow. -/
theorem sub8_fst_toNat_eq_mod (a b : Byte) :
    (sub8 a b).1.toNat = (256 - b.toNat + a.toNat) % 256 :=
  BitVec.toNat_sub a b

theorem sub8_fst_toNat (a b : Byte) :
    (sub8 a b).1.toNat = if a.toNat ≥ b.toNat then a.toNat - b.toNat else a.toNat + 256 - b.toNat := by
  have ha : a.toNat < 256 := a.isLt
  have hb : b.toNat < 256 := b.isLt
  rw [sub8_fst_toNat_eq_mod]
  split
  case isTrue noBorrow => omega
  case isFalse borrow => omega

theorem sub8_fst_toNat_eq_int_emod (a b : Byte) :
    ((sub8 a b).1.toNat : Int) = ((a.toNat : Int) - b.toNat) % 256 := by
  have hb : b.toNat < 256 := b.isLt
  rw [sub8_fst_toNat_eq_mod]
  omega

@[simp] theorem sub8_snd_toNat (a b : Byte) :
    (sub8 a b).2.toNat = if a.toNat ≥ b.toNat then 1 else 0 := by
  simp [sub8]

/-- Settles O28, from the laws above for all bytes; the source's four examples are evaluated. -/
theorem eightBitLaws : Obligations.EightBitLaws := by
  refine ⟨fun a b => ⟨add8_fst_toNat a b, add8_snd_toNat a b⟩,
    fun a b => ⟨sub8_fst_toNat a b, sub8_fst_toNat_eq_int_emod a b, sub8_snd_toNat a b⟩, ?examples⟩
  case examples => decide

end Sys2Proof.Machine
end

