-- ==== Sys2Proof/Proofs/Jump.lean ====
section
/-!
The unconditional jump: what its word decodes to, what `exec` makes of it, and the address operand as a number.
-/

namespace Sys2Proof.Machine

/-- Zero extension keeps the value of the 12-bit operand (R73). -/
@[simp] theorem addrOperand_toNat (nnn : Addr12) : (addrOperand nnn).toNat = nnn.toNat :=
  BitVec.toNat_setWidth_of_le (by omega)

theorem decodeWord_jp (nnn : Addr12) : decodeWord (0x1#4 ++ nnn) = .ok (.jp nnn) := by
  simp [decodeWord]

theorem exec_jp (nnn : Addr12) (s : State) : exec (.jp nnn) s = .next (s.jump (addrOperand nnn)) := rfl

@[simp] theorem State.readByte_jump (s : State) (target : Word) (a : Nat) :
    (s.jump target).readByte a = s.readByte a := rfl

/-- Settles O23: `exec` is one `State.jump` to the zero-extended operand, and a jump writes `pc` alone. -/
theorem jpSetsPcExactly : Obligations.JpSetsPcExactly := by
  intro nnn
  refine ⟨decodeWord_jp nnn, fun s => ⟨s.jump (addrOperand nnn), exec_jp nnn s, ?target, ?frame, ?memory⟩⟩
  case target => rw [State.jump_pc, addrOperand_toNat]
  case frame => rw [State.jump_pc, State.jump]
  case memory => exact s.readByte_jump (addrOperand nnn)

end Sys2Proof.Machine
end

