-- ==== Sys2Proof/Proofs/FontAddress.lean ====
section
/-!
`LD F, Vx`: what its word decodes to, and the address it computes, as a number in the font region.
-/

namespace Sys2Proof.Machine

/-- The address of the glyph that the low nibble of `Vx` selects, five bytes per glyph from base 0 (R29, R201). -/
def State.glyphAddress (s : State) (x : RegIx) : Word := (s.regAsWord x &&& 0x000F) * 5

theorem decodeWord_ldF (x : RegIx) : decodeWord (0xF#4 ++ x ++ 0x29#8) = .ok (.ldF x) := by
  simp [decodeWord, decodeGroupF]

theorem exec_ldF (x : RegIx) (s : State) : exec (.ldF x) s = .next { s with I := s.glyphAddress x } := rfl

/-- Zero extension keeps the value of a register (R125, R148). -/
@[simp] theorem State.regAsWord_toNat (s : State) (x : RegIx) : (s.regAsWord x).toNat = (s.reg x).toNat :=
  BitVec.toNat_setWidth_of_le (by omega)

/-- The mask keeps the low nibble, as a number the remainder modulo 16. -/
theorem toNat_and_lowNibble (w : Word) : (w &&& 0x000F).toNat = w.toNat % 16 := by
  rw [BitVec.toNat_and]
  exact Nat.and_two_pow_sub_one_eq_mod w.toNat 4

/-- The product is at most 75, so the 16-bit multiplication does not wrap. -/
theorem State.glyphAddress_toNat (s : State) (x : RegIx) :
    (s.glyphAddress x).toNat = (s.reg x).toNat % 16 * 5 := by
  have noWrap : (s.reg x).toNat % 16 * 5 < 2 ^ 16 := by omega
  calc (s.glyphAddress x).toNat
      = (s.regAsWord x &&& 0x000F).toNat * 5 % 2 ^ 16 := BitVec.toNat_mul _ _
    _ = (s.reg x).toNat % 16 * 5 % 2 ^ 16 := by rw [toNat_and_lowNibble, State.regAsWord_toNat]
    _ = (s.reg x).toNat % 16 * 5 := Nat.mod_eq_of_lt noWrap

theorem State.glyphAddress_le (s : State) (x : RegIx) : (s.glyphAddress x).toNat ≤ 75 := by
  rw [State.glyphAddress_toNat]
  omega

/-- A memory read depends on `mem` alone. -/
theorem State.readByte_of_mem {s t : State} (h : t.mem = s.mem) (a : Nat) : t.readByte a = s.readByte a := by
  unfold State.readByte
  rw [h]

/-- Settles O47: `exec` writes `State.glyphAddress` to `I` and nothing else, and that address does not wrap. -/
theorem ldFPointsAtGlyph : Obligations.LdFPointsAtGlyph := by
  intro x
  refine ⟨decodeWord_ldF x, fun s => ⟨_, exec_ldF x s, s.glyphAddress_toNat x, s.glyphAddress_le x, ?frame, ?memory⟩⟩
  case frame => rfl
  case memory => exact State.readByte_of_mem rfl

end Sys2Proof.Machine
end

