-- ==== Sys2Proof/Proofs/Encoding.lean ====
section
/-!
The decoder and the encoder as inverses (R70 to R80), group by group: first the words an instruction encodes to, then
the instructions a word decodes to.
-/

namespace Sys2Proof

/-! ### Decoding an encoded instruction -/

theorem decodeGroup0_cls (ign : Nibble) : decodeGroup0 (0x0#4 ++ ign ++ 0xE0#8) = .cls ign := by
  simp [decodeGroup0]

theorem decodeGroup0_ret (ign : Nibble) : decodeGroup0 (0x0#4 ++ ign ++ 0xEE#8) = .ret ign := by
  simp [decodeGroup0]

/-- The operand of a well-formed `SYS` is no selector of `CLS` or `RET`, so the default of the group is reached. -/
theorem decodeGroup0_sys {nnn : Addr12} (h : WellFormed (.sys nnn)) : decodeGroup0 (0x0#4 ++ nnn) = .sys nnn := by
  simp only [WellFormed, Instr.wellFormed, Bool.and_eq_true, bne_iff_ne] at h
  obtain ⟨notCls, notRet⟩ := h
  simp [decodeGroup0, field_kk_addr, notCls, notRet]

/-- The decoder gives a well-formed instruction back from its word (R74, R75). -/
theorem decodeWord_encode {i : Instr} (h : WellFormed i) : decodeWord (encode i) = .ok i := by
  cases i with
  | sys nnn => simp [decodeWord, encode, decodeGroup0_sys h]
  | cls ign => simp [decodeWord, encode, decodeGroup0_cls]
  | ret ign => simp [decodeWord, encode, decodeGroup0_ret]
  | _ => simp [decodeWord, encode, decodeGroup8, decodeGroupE, decodeGroupF]

/-- Settles O1: the two bytes make the instruction's word again, and that word decodes to the instruction. -/
theorem decodeInvertsEncode : Obligations.DecodeInvertsEncode := by
  intro i rest h
  simp [encodeBytes, decode, opcodeOfBytes_fields, decodeWord_encode h]

/-! ### Encoding a decoded instruction -/

/-- A word of a row that has its own low byte, from the two fields the row fixes. -/
theorem word_of_selByte {op : Word} {h : BitVec 4} {kk : BitVec 8} (hh : op.extractLsb' 12 4 = h)
    (hk : op.extractLsb' 0 8 = kk) : h ++ op.extractLsb' 8 4 ++ kk = op := by
  subst hh hk
  exact word_eq_byte op

/-- A word of a row that has its own low nibble, from the two fields the row fixes. -/
theorem word_of_selNibble {op : Word} {h n : BitVec 4} (hh : op.extractLsb' 12 4 = h)
    (hn : op.extractLsb' 0 4 = n) : h ++ op.extractLsb' 8 4 ++ op.extractLsb' 4 4 ++ n = op := by
  subst hh hn
  exact word_eq_nibble op

theorem word_of_op4_addr {op : Word} {h : BitVec 4} (hh : op.extractLsb' 12 4 = h) :
    h ++ op.extractLsb' 0 12 = op := by
  subst hh
  exact word_eq_addr op

theorem word_of_op4_byte {op : Word} {h : BitVec 4} (hh : op.extractLsb' 12 4 = h) :
    h ++ op.extractLsb' 8 4 ++ op.extractLsb' 0 8 = op :=
  word_of_selByte hh rfl

theorem word_of_op4_nibble {op : Word} {h : BitVec 4} (hh : op.extractLsb' 12 4 = h) :
    h ++ op.extractLsb' 8 4 ++ op.extractLsb' 4 4 ++ op.extractLsb' 0 4 = op :=
  word_of_selNibble hh rfl

theorem encode_decodeGroup0 {op : Word} (hh : op.extractLsb' 12 4 = 0x0#4) :
    encode (decodeGroup0 op) = op ∧ WellFormed (decodeGroup0 op) := by
  unfold decodeGroup0
  dsimp only
  split
  case isTrue hk => exact ⟨word_of_selByte hh hk, rfl⟩
  case isFalse notCls =>
    split
    case isTrue hk => exact ⟨word_of_selByte hh hk, rfl⟩
    case isFalse notRet =>
      have low : (op.extractLsb' 0 12).extractLsb' 0 8 = op.extractLsb' 0 8 := by
        rw [← field_kk_addr 0x0#4, word_of_op4_addr hh]
      refine ⟨word_of_op4_addr hh, ?_⟩
      simp only [WellFormed, Instr.wellFormed, Bool.and_eq_true, bne_iff_ne, low]
      exact ⟨notCls, notRet⟩

theorem encode_decodeGroup8 {op : Word} {i : Instr} (hh : op.extractLsb' 12 4 = 0x8#4)
    (hd : decodeGroup8 op = .ok i) : encode i = op ∧ WellFormed i := by
  unfold decodeGroup8 at hd
  dsimp only at hd
  split_ifs at hd with hn hn hn hn hn hn hn hn hn
  all_goals
    cases hd
    exact ⟨word_of_selNibble hh hn, rfl⟩

theorem encode_decodeGroupE {op : Word} {i : Instr} (hh : op.extractLsb' 12 4 = 0xE#4)
    (hd : decodeGroupE op = .ok i) : encode i = op ∧ WellFormed i := by
  unfold decodeGroupE at hd
  dsimp only at hd
  split_ifs at hd with hk hk
  all_goals
    cases hd
    exact ⟨word_of_selByte hh hk, rfl⟩

theorem encode_decodeGroupF {op : Word} {i : Instr} (hh : op.extractLsb' 12 4 = 0xF#4)
    (hd : decodeGroupF op = .ok i) : encode i = op ∧ WellFormed i := by
  unfold decodeGroupF at hd
  dsimp only at hd
  split_ifs at hd with hk hk hk hk hk hk hk hk hk
  all_goals
    cases hd
    exact ⟨word_of_selByte hh hk, rfl⟩

/-- The sixteen groups of the opcode table (R74). -/
theorem nibble_cases (h : BitVec 4) :
    h = 0x0#4 ∨ h = 0x1#4 ∨ h = 0x2#4 ∨ h = 0x3#4 ∨ h = 0x4#4 ∨ h = 0x5#4 ∨ h = 0x6#4 ∨ h = 0x7#4 ∨
      h = 0x8#4 ∨ h = 0x9#4 ∨ h = 0xA#4 ∨ h = 0xB#4 ∨ h = 0xC#4 ∨ h = 0xD#4 ∨ h = 0xE#4 ∨ h = 0xF#4 := by
  decide +revert

/-- In a group without a secondary selector the fields that the row leaves free are the operands; the other four
groups are the lemmas above. -/
theorem encode_of_decodeWord {op : Word} {i : Instr} (hd : decodeWord op = .ok i) : encode i = op ∧ WellFormed i := by
  rcases nibble_cases (op.extractLsb' 12 4) with h | h | h | h | h | h | h | h | h | h | h | h | h | h | h | h
  all_goals simp [decodeWord, h] at hd
  · exact hd ▸ encode_decodeGroup0 h
  · exact hd ▸ ⟨word_of_op4_addr h, rfl⟩
  · exact hd ▸ ⟨word_of_op4_addr h, rfl⟩
  · exact hd ▸ ⟨word_of_op4_byte h, rfl⟩
  · exact hd ▸ ⟨word_of_op4_byte h, rfl⟩
  · exact hd ▸ ⟨word_of_op4_nibble h, rfl⟩
  · exact hd ▸ ⟨word_of_op4_byte h, rfl⟩
  · exact hd ▸ ⟨word_of_op4_byte h, rfl⟩
  · exact encode_decodeGroup8 h hd
  · exact hd ▸ ⟨word_of_op4_nibble h, rfl⟩
  · exact hd ▸ ⟨word_of_op4_addr h, rfl⟩
  · exact hd ▸ ⟨word_of_op4_addr h, rfl⟩
  · exact hd ▸ ⟨word_of_op4_byte h, rfl⟩
  · exact hd ▸ ⟨word_of_op4_nibble h, rfl⟩
  · exact encode_decodeGroupE h hd
  · exact encode_decodeGroupF h hd

/-- Settles O2, group by group of the decoder. -/
theorem decodedWordReencodes : Obligations.DecodedWordReencodes :=
  fun _ _ hd => encode_of_decodeWord hd

/-! ### The words the decoder refuses, as numbers (R79) -/

theorem field_n_eq_iff (op : Word) {c : Nat} (hc : c < 16) :
    op.extractLsb' 0 4 = BitVec.ofNat 4 c ↔ op.toNat % 16 = c := by
  rw [← BitVec.toNat_inj, BitVec.extractLsb'_toNat, BitVec.toNat_ofNat, Nat.shiftRight_zero]
  omega

theorem field_kk_eq_iff (op : Word) {c : Nat} (hc : c < 256) :
    op.extractLsb' 0 8 = BitVec.ofNat 8 c ↔ op.toNat % 256 = c := by
  rw [← BitVec.toNat_inj, BitVec.extractLsb'_toNat, BitVec.toNat_ofNat, Nat.shiftRight_zero]
  omega

theorem toNat_div_of_op4 {op : Word} {h : BitVec 4} (hh : op.extractLsb' 12 4 = h) : op.toNat / 4096 = h.toNat := by
  have small : op.toNat < 65536 := op.isLt
  rw [← hh, BitVec.extractLsb'_toNat, Nat.shiftRight_eq_div_pow]
  omega

theorem decodeGroup8_error_iff (op : Word) (e : DecodeError) :
    decodeGroup8 op = .error e ↔
      (8 ≤ op.toNat % 16 ∧ op.toNat % 16 ≠ 0xE) ∧ e = .unrecognizedOpcode op := by
  simp (disch := decide) only [decodeGroup8, field_n_eq_iff, eq_comm (a := e)]
  split_ifs <;> simp <;> omega

theorem decodeGroupE_error_iff (op : Word) (e : DecodeError) :
    decodeGroupE op = .error e ↔ op.toNat % 256 ∉ [0x9E, 0xA1] ∧ e = .unrecognizedOpcode op := by
  simp (disch := decide) only [decodeGroupE, field_kk_eq_iff, eq_comm (a := e)]
  split_ifs <;> simp [*]

theorem decodeGroupF_error_iff (op : Word) (e : DecodeError) :
    decodeGroupF op = .error e ↔
      op.toNat % 256 ∉ [0x07, 0x0A, 0x15, 0x18, 0x1E, 0x29, 0x33, 0x55, 0x65] ∧ e = .unrecognizedOpcode op := by
  simp (disch := decide) only [decodeGroupF, field_kk_eq_iff, eq_comm (a := e)]
  split_ifs <;> simp [*]

/-- Twelve groups and group 0x0 decode every word; the other three refuse by their selectors (R79). -/
theorem decodeWord_error_iff (op : Word) (e : DecodeError) :
    decodeWord op = .error e ↔ Machine.IllegalWord op ∧ e = .unrecognizedOpcode op := by
  rcases nibble_cases (op.extractLsb' 12 4) with h | h | h | h | h | h | h | h | h | h | h | h | h | h | h | h
  all_goals
    have top := toNat_div_of_op4 h
    simp [decodeWord, h, Machine.IllegalWord, top, decodeGroup8_error_iff, decodeGroupE_error_iff,
      decodeGroupF_error_iff]

/-- A word outside R79's list decodes, since the decoder refuses by no other name. -/
theorem decodeWord_ok_of_legal {op : Word} (h : ¬ Machine.IllegalWord op) : ∃ i, decodeWord op = .ok i := by
  cases hd : decodeWord op with
  | ok i => exact ⟨i, rfl⟩
  | error e => exact absurd ((decodeWord_error_iff op e).mp hd).1 h

/-- Settles O3, from the groups that refuse and the selectors they refuse by. -/
theorem unrecognizedWordsExactly : Obligations.UnrecognizedWordsExactly := by
  intro op
  refine ⟨?_, decodeWord_ok_of_legal⟩
  rw [decodeWord_error_iff, and_iff_left rfl]

/-- Settles O4: thirteen words of the table, evaluated. -/
theorem sampleWordsDecode : Obligations.SampleWordsDecode := by
  unfold Obligations.SampleWordsDecode
  and_intros <;> decide

end Sys2Proof
end

