-- ==== Sys2Proof/Proofs/Effect.lean ====
section
/-!
What an instruction does, said once. `effect` is the change an instruction makes when it raises nothing, and
`State.faultDue` says when it raises; `exec_of_notDue` and `exec_of_faultDue` tie the two to `exec`.
-/

namespace Sys2Proof.Machine

/-- The state after the instruction where no fault is due, given the state of the execute phase (R94). Every test
stands inside a field, so that what an instruction leaves alone is seen without a case split. At a full or an empty
stack, where `CALL` or `RET` is due a fault, the value means nothing. -/
def effect (i : Instr) (s : State) : State :=
  match i with
  | .sys _ => s
  | .cls _ => { s with fb := Frame.clear, dirty := true }
  | .ret _ => s.pop.jump (if h : 0 < s.sp.val then s.top h else s.pc)
  | .jp nnn => s.jump (addrOperand nnn)
  | .call nnn =>
    { s with
      stack := if h : s.sp.val < 16 then s.stack.set s.sp.val s.pc h else s.stack
      sp := ⟨min (s.sp.val + 1) 16, by omega⟩
      pc := addrOperand nnn }
  | .seByte x kk => s.skipIf (s.reg x == kk)
  | .sneByte x kk => s.skipIf (s.reg x != kk)
  | .seReg x y _ => s.skipIf (s.reg x == s.reg y)
  | .ldByte x kk => s.setReg x kk
  | .addByte x kk =>
    { s with
      V := if s.params.addiWritesVf then (s.setRegFlag x (add8 (s.reg x) kk)).V
        else (s.setReg x (add8 (s.reg x) kk).1).V }
  | .ldReg x y => s.setReg x (s.reg y)
  | .orReg x y => s.setReg x (s.reg x ||| s.reg y)
  | .andReg x y => s.setReg x (s.reg x &&& s.reg y)
  | .xorReg x y => s.setReg x (s.reg x ^^^ s.reg y)
  | .addReg x y => s.setRegFlag x (add8 (s.reg x) (s.reg y))
  | .subReg x y => s.setRegFlag x (sub8 (s.reg x) (s.reg y))
  | .shr x _ => s.setReg x (s.reg x >>> 1)
  | .subnReg x y => s.setRegFlag x (sub8 (s.reg y) (s.reg x))
  | .shl x _ => s.setReg x (s.reg x <<< 1)
  | .sneReg x y _ => s.skipIf (s.reg x != s.reg y)
  | .ldI nnn => { s with I := addrOperand nnn }
  | .jpV0 nnn => s.jump (addrOperand nnn + s.regAsWord 0)
  | .rnd x kk => s.setReg x (kk &&& s.rnd)
  | .drw x y n => { s with fb := (s.drawn x y n).fb, dirty := true }.setFlag (flagByte (s.drawn x y n).coll)
  | .skp x => s.skipIf (s.keyDown (s.reg x).toNat)
  | .sknp x => s.skipIf (!s.keyDown (s.reg x).toNat)
  | .ldVxDt x => s.setReg x s.DT
  | .ldVxK x =>
    { s with
      V := if s.newlyDown ≠ 0 then (s.setReg x (lowestKey s.newlyDown)).V else s.V
      pc := if s.newlyDown ≠ 0 then s.pc else s.pc - 2 }
  | .ldDtVx x => { s with DT := s.reg x }
  | .ldStVx x => { s with ST := s.reg x }
  | .addI x => { s with I := (add16 s.I (s.regAsWord x)).1 }.setFlag (add16 s.I (s.regAsWord x)).2
  | .ldF x => { s with I := s.glyphAddress x }
  | .ldB x => s.storeBytes (s.ea 0) (bcdDigits (s.reg x))
  | .storeRegs x => s.storeBytes (s.ea 0) (s.regBlock (x.toNat + 1))
  | .loadRegs x => { s with V := (s.setRegBlock 0 (s.mem.readBlock (s.ea 0) (x.toNat + 1))).V }

/-! ### The fault due to each instruction that can raise (R221 to R225, R228) -/

section
variable (s : State)

theorem faultDue_encode_ret (ign : Nibble) :
    s.faultDue (encode (.ret ign)) = if s.sp.val = 0 then some (3, 0) else none := by
  rw [State.faultDue, decodeWord_encode rfl]

theorem faultDue_encode_call (nnn : Addr12) :
    s.faultDue (encode (.call nnn)) = if s.sp.val = 16 then some (2, 0) else none := by
  rw [State.faultDue, decodeWord_encode rfl]

theorem faultDue_encode_drw (x y : RegIx) (n : Nibble) :
    s.faultDue (encode (.drw x y n)) =
      if 0 < n.toNat ∧ 0x0FFF < s.I.toNat + n.toNat - 1 then some (4, maxWith0x1000 s.I) else none := by
  rw [State.faultDue, decodeWord_encode rfl]

theorem faultDue_encode_ldB (x : RegIx) :
    s.faultDue (encode (.ldB x)) = if 0x0FFF < s.I.toNat + 2 then some (4, maxWith0x1000 s.I) else none := by
  rw [State.faultDue, decodeWord_encode rfl]

theorem faultDue_encode_storeRegs (x : RegIx) :
    s.faultDue (encode (.storeRegs x)) =
      if 0x0FFF < s.I.toNat + x.toNat then some (4, maxWith0x1000 s.I) else none := by
  rw [State.faultDue, decodeWord_encode rfl]

theorem faultDue_encode_loadRegs (x : RegIx) :
    s.faultDue (encode (.loadRegs x)) =
      if 0x0FFF < s.I.toNat + x.toNat then some (4, maxWith0x1000 s.I) else none := by
  rw [State.faultDue, decodeWord_encode rfl]

theorem faultDue_encode_skp (x : RegIx) :
    s.faultDue (encode (.skp x)) = if 15 < (s.reg x).toNat then some (5, s.regAsWord x) else none := by
  rw [State.faultDue, decodeWord_encode rfl, State.regAsWord]

theorem faultDue_encode_sknp (x : RegIx) :
    s.faultDue (encode (.sknp x)) = if 15 < (s.reg x).toNat then some (5, s.regAsWord x) else none := by
  rw [State.faultDue, decodeWord_encode rfl, State.regAsWord]

end

/-! ### `exec` is `effect`, or the fault that is due -/

/-- The raise of the range test, with the statements' `max(I, 0x1000)`. -/
theorem State.withRange_raise {s : State} {len : Nat} (h : ¬ (len = 0 ∨ s.I.toNat + len - 1 ≤ 0x0FFF)) (op : Word)
    (body : Result) :
    s.withRange len op body = .next ({ s with pc := s.pc - 2 }.faulted 4 op (maxWith0x1000 s.I)) := by
  rw [State.withRange_neg h, lowestOutOfRange_eq, State.raise_eq, Cause.code]

/-- Where no fault is due, an instruction makes its change; only eight instructions have a test to pass (R228). -/
theorem exec_of_notDue {i : Instr} {s : State} (notDue : s.faultDue (encode i) = none) :
    exec i s = .next (effect i s) := by
  cases i with
  | ret ign =>
    have held : s.sp.val ≠ 0 := by simpa [faultDue_encode_ret] using notDue
    simp only [exec, execRet, effect, dif_pos (Nat.pos_of_ne_zero held)]
  | call nnn =>
    have notFull : s.sp.val ≠ 16 := by simpa [faultDue_encode_call] using notDue
    have room : s.sp.val + 1 ≤ 16 := by omega
    simp only [exec, execCall, effect, dif_pos (Nat.lt_of_succ_le room), State.push, State.jump, Nat.min_eq_left room]
  | drw x y n =>
    simp only [faultDue_encode_drw, ite_eq_right_iff, reduceCtorEq, imp_false] at notDue
    exact State.withRange_pos (by omega) _ _
  | ldB x =>
    simp only [faultDue_encode_ldB, ite_eq_right_iff, reduceCtorEq, imp_false] at notDue
    exact State.withRange_pos (by omega) _ _
  | storeRegs x =>
    simp only [faultDue_encode_storeRegs, ite_eq_right_iff, reduceCtorEq, imp_false] at notDue
    exact State.withRange_pos (by omega) _ _
  | loadRegs x =>
    simp only [faultDue_encode_loadRegs, ite_eq_right_iff, reduceCtorEq, imp_false] at notDue
    have inRange : x.toNat + 1 = 0 ∨ s.I.toNat + (x.toNat + 1) - 1 ≤ 0x0FFF := by omega
    simp only [exec, execLoadRegs, effect, State.withRange_pos inRange, ← State.setRegBlock_frame]
  | skp x =>
    have index : (s.reg x).toNat ≤ 15 := by simpa [faultDue_encode_skp] using notDue
    simp only [exec, execSkp, State.withKeyIndex_pos index, effect]
  | sknp x =>
    have index : (s.reg x).toNat ≤ 15 := by simpa [faultDue_encode_sknp] using notDue
    simp only [exec, execSknp, State.withKeyIndex_pos index, effect]
  | addByte x kk =>
    simp only [exec, execAddByte, effect]
    split <;> rfl
  | _ => rfl

/-- Where a fault is due, the instruction raises it with its own word and puts the 2 back on `pc` (R90, R229). -/
theorem exec_of_faultDue {i : Instr} {s : State} {code : BitVec 3} {addr : Word} (wf : WellFormed i)
    (due : s.faultDue (encode i) = some (code, addr)) :
    exec i s = .next ({ s with pc := s.pc - 2 }.faulted code (encode i) addr) := by
  cases i with
  | ret ign =>
    rw [faultDue_encode_ret, Option.ite_none_right_eq_some] at due
    obtain ⟨empty, ⟨⟩⟩ := due
    simp only [exec, execRet, empty, lt_irrefl, dite_false, State.raise_eq, Cause.code]
  | call nnn =>
    rw [faultDue_encode_call, Option.ite_none_right_eq_some] at due
    obtain ⟨full, ⟨⟩⟩ := due
    simp only [exec, execCall, full, lt_irrefl, dite_false, State.raise_eq, Cause.code]
  | drw x y n =>
    rw [faultDue_encode_drw, Option.ite_none_right_eq_some] at due
    obtain ⟨outOfRange, ⟨⟩⟩ := due
    exact State.withRange_raise (by omega) _ _
  | ldB x =>
    rw [faultDue_encode_ldB, Option.ite_none_right_eq_some] at due
    obtain ⟨outOfRange, ⟨⟩⟩ := due
    exact State.withRange_raise (by omega) _ _
  | storeRegs x =>
    rw [faultDue_encode_storeRegs, Option.ite_none_right_eq_some] at due
    obtain ⟨outOfRange, ⟨⟩⟩ := due
    exact State.withRange_raise (by omega) _ _
  | loadRegs x =>
    rw [faultDue_encode_loadRegs, Option.ite_none_right_eq_some] at due
    obtain ⟨outOfRange, ⟨⟩⟩ := due
    exact State.withRange_raise (by omega) _ _
  | skp x =>
    rw [faultDue_encode_skp, Option.ite_none_right_eq_some] at due
    obtain ⟨noIndex, ⟨⟩⟩ := due
    simp only [exec, execSkp, State.withKeyIndex_neg noIndex, State.raise_eq, Cause.code]
  | sknp x =>
    rw [faultDue_encode_sknp, Option.ite_none_right_eq_some] at due
    obtain ⟨noIndex, ⟨⟩⟩ := due
    simp only [exec, execSknp, State.withKeyIndex_neg noIndex, State.raise_eq, Cause.code]
  | _ =>
    rw [State.faultDue, decodeWord_encode wf] at due
    cases due

/-! ### What no instruction changes -/

/-- The fields an instruction may write; the others are the cycle's and the host's (R31, R32, R34, R35). -/
theorem effect_frame (i : Instr) (s : State) :
    effect i s =
      { s with
        V := (effect i s).V, pc := (effect i s).pc, I := (effect i s).I, sp := (effect i s).sp,
        stack := (effect i s).stack, DT := (effect i s).DT, ST := (effect i s).ST, mem := (effect i s).mem,
        fb := (effect i s).fb, dirty := (effect i s).dirty } := by
  cases i <;> rfl

section
variable (i : Instr) (s : State)

@[simp] theorem effect_kprev : (effect i s).kprev = s.kprev := by rw [effect_frame]
@[simp] theorem effect_tacc : (effect i s).tacc = s.tacc := by rw [effect_frame]
@[simp] theorem effect_halted : (effect i s).halted = s.halted := by rw [effect_frame]
@[simp] theorem effect_fcause : (effect i s).fcause = s.fcause := by rw [effect_frame]
@[simp] theorem effect_fpc : (effect i s).fpc = s.fpc := by rw [effect_frame]
@[simp] theorem effect_fop : (effect i s).fop = s.fop := by rw [effect_frame]
@[simp] theorem effect_faddr : (effect i s).faddr = s.faddr := by rw [effect_frame]
@[simp] theorem effect_params : (effect i s).params = s.params := by rw [effect_frame]
@[simp] theorem effect_inputs : (effect i s).inputs = s.inputs := by rw [effect_frame]
@[simp] theorem effect_served : (effect i s).served = s.served := by rw [effect_frame]

@[simp] theorem effect_K : (effect i s).K = s.K := State.K_of_inputs (effect_inputs i s) (effect_served i s)

end

/-! ### What a step can do, as four cases -/

/-- The four ways of a cycle (R90, R98): nothing in a halted core, a fault of the fetch, the fault that the fetched
word is due, or the change of the decoded instruction and then the end of the cycle. -/
inductive StepCase (s : State) : State → Prop
  | halted (stopped : s.halted = true) : StepCase s s
  | fetchFault (running : s.halted = false) (high : 0x0FFE < s.pc.toNat) :
      StepCase s (s.faulted 4 0 (maxWith0x1000 s.pc))
  | fault (running : s.halted = false) (low : s.pc.toNat ≤ 0x0FFE) {code : BitVec 3} {addr : Word}
      (due : s.faultDue s.wordAtPc = some (code, addr)) : StepCase s (s.faulted code s.wordAtPc addr)
  | completed (running : s.halted = false) (low : s.pc.toNat ≤ 0x0FFE) {i : Instr}
      (decoded : decodeWord s.wordAtPc = .ok i) (notDue : s.faultDue s.wordAtPc = none) :
      StepCase s (effect i s.advance).endCycle

/-- The advance changes nothing that the fault due to a word depends on. -/
@[simp] theorem State.faultDue_advance (s : State) (op : Word) : s.advance.faultDue op = s.faultDue op := rfl

/-- A fault of the execute phase is a fault of the state the cycle began with (R90, R229). -/
theorem State.faulted_retract_advance (s : State) (code : BitVec 3) (op addr : Word) :
    { s.advance with pc := s.advance.pc - 2 }.faulted code op addr = s.faulted code op addr := by
  simp only [State.advance, pc_advance_retract]

theorem step_of_faultDue {s : State} (running : s.halted = false) (low : s.pc.toNat ≤ 0x0FFE) {code : BitVec 3}
    {addr : Word} (due : s.faultDue s.wordAtPc = some (code, addr)) :
    step s = .next (s.faulted code s.wordAtPc addr) := by
  cases hd : decodeWord s.wordAtPc with
  | error e =>
    rw [State.faultDue, hd] at due
    cases due
    exact step_unrecognized running low hd
  | ok i =>
    obtain ⟨word, wf⟩ := encode_of_decodeWord hd
    rw [← State.faultDue_advance, ← word] at due
    have raised := exec_of_faultDue wf due
    rw [State.faulted_retract_advance, word] at raised
    rw [step_exec running low hd raised, completeCycle_halted rfl]

theorem step_of_notDue {s : State} (running : s.halted = false) (low : s.pc.toNat ≤ 0x0FFE) {i : Instr}
    (decoded : decodeWord s.wordAtPc = .ok i) (notDue : s.faultDue s.wordAtPc = none) :
    step s = .next (effect i s.advance).endCycle := by
  obtain ⟨word, -⟩ := encode_of_decodeWord decoded
  rw [← State.faultDue_advance, ← word] at notDue
  rw [step_exec running low decoded (exec_of_notDue notDue), completeCycle_running]
  rw [effect_halted]
  exact running

theorem StepCase.step_eq {s t : State} (h : StepCase s t) : step s = .next t := by
  cases h with
  | halted stopped => exact step_halted stopped
  | fetchFault running high => exact step_fetchFault running high
  | fault running low due => exact step_of_faultDue running low due
  | completed running low decoded notDue => exact step_of_notDue running low decoded notDue

/-- One of the four cases applies to every state. -/
theorem exists_stepCase (s : State) : ∃ t, StepCase s t := by
  by_cases stopped : s.halted = true
  · exact ⟨_, .halted stopped⟩
  have running : s.halted = false := by simpa using stopped
  by_cases high : 0x0FFE < s.pc.toNat
  · exact ⟨_, .fetchFault running high⟩
  have low : s.pc.toNat ≤ 0x0FFE := by omega
  cases due : s.faultDue s.wordAtPc with
  | some fault => exact ⟨_, .fault running low due⟩
  | none =>
    cases decoded : decodeWord s.wordAtPc with
    | ok i => exact ⟨_, .completed running low decoded due⟩
    | error e => rw [State.faultDue, decoded] at due; cases due

/-- The inversion of a step: it answers what one of the four cases says. -/
theorem stepCase_of_step {s t : State} (h : step s = .next t) : StepCase s t := by
  obtain ⟨u, hu⟩ := exists_stepCase s
  have same : t = u := by simpa [h] using hu.step_eq
  exact same ▸ hu

end Sys2Proof.Machine
end

