-- ==== Sys2Proof/Proofs/Writers.lean ====
section
/-!
Which instructions change a part of the state (R21 to R28, R33, R50, R57), first for `effect` and then for a step.
-/

namespace Sys2Proof.Machine

/-! ### Writers among the instructions -/

section
variable {i : Instr} {s : State}

/-- The two stores are the only writers of memory, and this is what they write. -/
theorem effect_mem_cases (i : Instr) (s : State) :
    (effect i s).mem = s.mem ∨
    (∃ x, i = .ldB x ∧ (effect i s).mem = s.mem.writeBlock s.I.toNat (bcdDigits (s.reg x))) ∨
    (∃ x, i = .storeRegs x ∧ (effect i s).mem = s.mem.writeBlock s.I.toNat (s.regBlock (x.toNat + 1))) := by
  cases i with
  | ldB x => exact .inr (.inl ⟨x, rfl, rfl⟩)
  | storeRegs x => exact .inr (.inr ⟨x, rfl, rfl⟩)
  | _ => exact .inl rfl

theorem call_of_effect_stack_ne (h : (effect i s).stack ≠ s.stack) : ∃ nnn, i = .call nnn := by
  cases i with
  | call nnn => exact ⟨nnn, rfl⟩
  | _ => exact absurd rfl h

theorem call_or_ret_of_effect_sp_ne (h : (effect i s).sp ≠ s.sp) :
    (∃ nnn, i = .call nnn) ∨ ∃ ign, i = .ret ign := by
  cases i with
  | call nnn => exact .inl ⟨nnn, rfl⟩
  | ret ign => exact .inr ⟨ign, rfl⟩
  | _ => exact absurd rfl h

theorem cls_or_drw_of_effect_fb_ne (h : (effect i s).fb ≠ s.fb) :
    (∃ ign, i = .cls ign) ∨ ∃ x y n, i = .drw x y n := by
  cases i with
  | cls ign => exact .inl ⟨ign, rfl⟩
  | drw x y n => exact .inr ⟨x, y, n, rfl⟩
  | _ => exact absurd rfl h

theorem index_writer_of_effect_I_ne (h : (effect i s).I ≠ s.I) :
    (∃ nnn, i = .ldI nnn) ∨ (∃ x, i = .addI x) ∨ ∃ x, i = .ldF x := by
  cases i with
  | ldI nnn => exact .inl ⟨nnn, rfl⟩
  | addI x => exact .inr (.inl ⟨x, rfl⟩)
  | ldF x => exact .inr (.inr ⟨x, rfl⟩)
  | _ => exact absurd rfl h

/-- Instructions set the dirty bit and never clear it. -/
theorem effect_dirty_of_dirty (i : Instr) (h : s.dirty = true) : (effect i s).dirty = true := by
  cases i with
  | cls _ => rfl
  | drw _ _ _ => rfl
  | _ => exact h

theorem effect_DT (i : Instr) (s : State) :
    (effect i s).DT = match i with | .ldDtVx x => s.reg x | _ => s.DT := by
  cases i <;> rfl

theorem effect_ST (i : Instr) (s : State) :
    (effect i s).ST = match i with | .ldStVx x => s.reg x | _ => s.ST := by
  cases i <;> rfl

theorem eq_of_reg_setReg_ne {x y : RegIx} {v : Byte} (h : (s.setReg x v).reg y ≠ s.reg y) : x = y := by
  by_contra other
  exact h (s.reg_setReg_other (Ne.symm other) v)

theorem flag_or_eq_of_addByte (x : RegIx) {y : RegIx} (kk : Byte) (h : (effect (.addByte x kk) s).reg y ≠ s.reg y) :
    s.params.addiWritesVf = true ∨ x = y := by
  by_cases flag : s.params.addiWritesVf = true
  · exact .inl flag
  · have written : (effect (.addByte x kk) s).V = (s.setReg x (add8 (s.reg x) kk).1).V := if_neg flag
    exact .inr (eq_of_reg_setReg_ne (State.reg_of_V written y ▸ h))

theorem eq_of_ldVxK (x : RegIx) {y : RegIx} (h : (effect (.ldVxK x) s).reg y ≠ s.reg y) : x = y := by
  by_cases pressed : s.newlyDown ≠ 0
  · have written : (effect (.ldVxK x) s).V = (s.setReg x (lowestKey s.newlyDown)).V := if_pos pressed
    exact eq_of_reg_setReg_ne (State.reg_of_V written y ▸ h)
  · have kept : (effect (.ldVxK x) s).V = s.V := if_neg pressed
    exact absurd (State.reg_of_V kept y) h

/-- The last register is in a block load of `x + 1` registers only if `x` is VF. -/
theorem eq_VF_of_loadRegs (x : RegIx) (h : (effect (.loadRegs x) s).reg VF ≠ s.reg VF) : x = VF := by
  by_contra other
  have below : x.toNat < 15 := by
    have := x.isLt
    have : x.toNat ≠ 15 := fun e => other (BitVec.eq_of_toNat_eq e)
    omega
  refine h ((State.reg_setRegBlock VF (s.mem.readBlock (s.ea 0) (x.toNat + 1)) s 0 ?_).trans (dif_neg ?_))
  · rw [Memory.readBlock_length]; omega
  · rw [Memory.readBlock_length, show VF.toNat = 15 from rfl]; omega

end

/-! ### From an instruction to the step that runs it -/

/-- A part of the state that neither a fault nor the end of the cycle touches changes only by the decoded
instruction. -/
theorem exists_decoded_of_changed {α : Type} (f : State → α)
    (kept_faulted : ∀ s code op addr, f (State.faulted s code op addr) = f s)
    (kept_endCycle : ∀ s : State, f s.endCycle = f s) {s t : State} (h : step s = .next t) (changed : f t ≠ f s) :
    ∃ i, decodeWord s.wordAtPc = .ok i ∧ f t = f (effect i s.advance) := by
  cases stepCase_of_step h with
  | halted _ => exact absurd rfl changed
  | fetchFault _ _ => exact absurd (kept_faulted ..) changed
  | fault _ _ _ => exact absurd (kept_faulted ..) changed
  | completed _ _ decoded _ => exact ⟨_, decoded, kept_endCycle _⟩

/-- Settles O13: a changed cell lies in the block of one of the two stores, since a block write leaves every cell
outside it alone. -/
theorem memoryWrittenOnlyByStores : Obligations.MemoryWrittenOnlyByStores := by
  intro s t a h changed
  obtain ⟨i, decoded, ht⟩ := exists_decoded_of_changed (State.readByte · a) (fun _ _ _ _ => rfl)
    (fun s => State.readByte_of_mem s.endCycle_mem a) h changed
  simp only [ht] at changed
  have outside : ∀ bs : List Byte, (effect i s.advance).mem = s.mem.writeBlock s.I.toNat bs →
      ¬ (a < s.I.toNat ∨ s.I.toNat + bs.length ≤ a) := fun bs hm hout =>
    changed (by rw [State.readByte, hm, Memory.read_writeBlock_outside bs _ _ hout, State.readByte])
  obtain kept | ⟨x, rfl, digits⟩ | ⟨x, rfl, block⟩ := effect_mem_cases i s.advance
  · exact absurd (State.readByte_of_mem kept a) changed
  · have := outside _ digits
    simp only [bcdDigits, List.length_cons, List.length_nil] at this
    exact .inl ⟨x, decoded, by omega, by omega⟩
  · have := outside _ block
    simp only [State.regBlock_length] at this
    exact .inr ⟨x, decoded, by omega, by omega⟩

theorem step_dirty_of_dirty {s t : State} (h : step s = .next t) (dirty : s.dirty = true) : t.dirty = true := by
  cases stepCase_of_step h with
  | halted _ => exact dirty
  | fetchFault _ _ => exact dirty
  | fault _ _ _ => exact dirty
  | completed _ _ _ _ =>
    rw [State.endCycle_dirty]
    exact effect_dirty_of_dirty _ dirty

/-- Settles O14: each field's writers among the instructions, lifted to the step. -/
theorem specialStateHasFewWriters : Obligations.SpecialStateHasFewWriters := by
  intro s t h
  refine ⟨fun changed => ?stack, fun changed => ?sp, fun changed => ?fb, fun changed => ?index,
    step_dirty_of_dirty h⟩
  case stack =>
    obtain ⟨i, decoded, ht⟩ :=
      exists_decoded_of_changed State.stack (fun _ _ _ _ => rfl) State.endCycle_stack h changed
    obtain ⟨nnn, rfl⟩ := call_of_effect_stack_ne (ht ▸ changed)
    exact ⟨nnn, decoded⟩
  case sp =>
    obtain ⟨i, decoded, ht⟩ := exists_decoded_of_changed State.sp (fun _ _ _ _ => rfl) State.endCycle_sp h changed
    obtain ⟨nnn, rfl⟩ | ⟨ign, rfl⟩ := call_or_ret_of_effect_sp_ne (ht ▸ changed)
    · exact .inl ⟨nnn, decoded⟩
    · exact .inr ⟨ign, decoded⟩
  case fb =>
    obtain ⟨i, decoded, ht⟩ := exists_decoded_of_changed State.fb (fun _ _ _ _ => rfl) State.endCycle_fb h changed
    obtain ⟨ign, rfl⟩ | ⟨x, y, n, rfl⟩ := cls_or_drw_of_effect_fb_ne (ht ▸ changed)
    · exact .inl ⟨ign, decoded⟩
    · exact .inr ⟨x, y, n, decoded⟩
  case index =>
    obtain ⟨i, decoded, ht⟩ := exists_decoded_of_changed State.I (fun _ _ _ _ => rfl) State.endCycle_I h changed
    obtain ⟨nnn, rfl⟩ | ⟨x, rfl⟩ | ⟨x, rfl⟩ := index_writer_of_effect_I_ne (ht ▸ changed)
    · exact .inl ⟨nnn, decoded⟩
    · exact .inr (.inl ⟨x, decoded⟩)
    · exact .inr (.inr ⟨x, decoded⟩)

/-- Settles O15: the flag writers are allowed whatever they write; every other instruction that names a destination
leaves VF alone unless VF is the destination, and the rest write no register. -/
theorem vfHasFewWriters : Obligations.VfHasFewWriters := by
  intro s t h changed
  obtain ⟨i, decoded, ht⟩ := exists_decoded_of_changed (State.reg · VF) (fun _ _ _ _ => rfl)
    (fun s => State.reg_of_V s.endCycle_V VF) h changed
  simp only [ht] at changed
  rw [decoded]
  cases i with
  | addReg _ _ | subReg _ _ | subnReg _ _ | addI _ | drw _ _ _ => trivial
  | ldByte _ _ | ldReg _ _ | orReg _ _ | andReg _ _ | xorReg _ _ | shr _ _ | shl _ _ | rnd _ _ | ldVxDt _ =>
    exact eq_of_reg_setReg_ne (s := s.advance) changed
  | addByte x kk => exact flag_or_eq_of_addByte x kk changed
  | ldVxK x => exact eq_of_ldVxK x changed
  | loadRegs x => exact eq_VF_of_loadRegs x changed
  | _ => exact changed rfl

end Sys2Proof.Machine
end

