-- ==== Sys2Proof/Proofs/Invariants.lean ====
section
/-!
The four invariants: reset meets them (R36) and every step keeps them (R5, R22, R32, R220).
-/

namespace Sys2Proof.Machine

/-! ### Memory in canonical form -/

theorem effect_memCanonical (i : Instr) {s : State} (h : s.MemCanonical) : (effect i s).MemCanonical := by
  unfold State.MemCanonical at h ⊢
  obtain kept | ⟨x, -, digits⟩ | ⟨x, -, block⟩ := effect_mem_cases i s
  · rw [kept]; exact h
  · rw [digits]; exact Memory.wf_writeBlock _ _ h
  · rw [block]; exact Memory.wf_writeBlock _ _ h

/-- Settles O52: memory is written by block writes alone, and those keep the form. -/
theorem stepKeepsMemoryCanonical : Obligations.StepKeepsMemoryCanonical := by
  intro s t canonical h
  cases stepCase_of_step h with
  | halted _ => exact canonical
  | fetchFault _ _ => exact canonical
  | fault _ _ _ => exact canonical
  | completed _ _ _ _ =>
    rw [State.MemCanonical, State.endCycle_mem]
    exact effect_memCanonical _ canonical

/-- Settles O51, by the two read-after-write laws. -/
theorem memoryReadsLastWrite : Obligations.MemoryReadsLastWrite := by
  intro m a b v wf inMemory
  refine ⟨?read, Memory.wf_write a v wf⟩
  split
  case isTrue same => rw [same, Memory.read_write_same inMemory wf]
  case isFalse other => exact Memory.read_write_other other m v

/-! ### The timer phase -/

/-- Settles O53: the accumulator gains 60, at most `R`, and loses `R` as soon as it reaches it. -/
theorem stepKeepsTimerPhase : Obligations.StepKeepsTimerPhase := by
  intro s t ⟨rate, phase⟩ h
  cases stepCase_of_step h with
  | halted _ => exact ⟨rate, phase⟩
  | fetchFault _ _ => exact ⟨rate, phase⟩
  | fault _ _ _ => exact ⟨rate, phase⟩
  | completed _ _ _ _ =>
    unfold State.TimerPhaseOk
    simp only [State.endCycle_params, State.endCycle_tacc, effect_params, effect_tacc, State.advance_params,
      State.advance_tacc]
    split <;> omega

/-! ### The bounds of `pc` and of the return addresses -/

/-- A `pc` that an instruction can be fetched from, put forward by 2, stays in the bound of a return address. -/
theorem advance_pc_toNat {s : State} (low : s.pc.toNat ≤ 0x0FFE) : s.advance.pc.toNat = s.pc.toNat + 2 := by
  rw [State.advance_pc, BitVec.toNat_add, show (2 : Word).toNat = 2 from rfl]
  omega

theorem skipIf_pc_le {s : State} (h : s.pc.toNat ≤ 0x1000) (c : Bool) : (s.skipIf c).pc.toNat ≤ 0x10FE := by
  cases c
  · exact h.trans (by decide)
  · show (s.pc + 2).toNat ≤ 0x10FE
    rw [BitVec.toNat_add, show (2 : Word).toNat = 2 from rfl]
    omega

/-- `nnn + V0` is at most 0xFFF + 0xFF, so the 16-bit sum does not wrap (R148, D23). -/
theorem addrOperand_add_reg_toNat (nnn : Addr12) (s : State) (x : RegIx) :
    (addrOperand nnn + s.regAsWord x).toNat = nnn.toNat + (s.reg x).toNat := by
  rw [BitVec.toNat_add, addrOperand_toNat, State.regAsWord_toNat]
  have := nnn.isLt
  have := (s.reg x).isLt
  omega

theorem addrOperand_toNat_le (nnn : Addr12) : (addrOperand nnn).toNat ≤ 0x0FFF := by
  have := nnn.isLt
  rw [addrOperand_toNat]
  omega

/-- Where `pc` is that of the execute phase, the next `pc` is that or a skip past it, a target of 12 bits, the sum of
`JP V0`, a return address, or the address of a stalled key wait. -/
theorem effect_pc_le (i : Instr) {s : State} (advanced : 2 ≤ s.pc.toNat) (low : s.pc.toNat ≤ 0x1000)
    (stack : ∀ k : Fin 16, s.stack[k].toNat ≤ 0x1000) : (effect i s).pc.toNat ≤ 0x10FE := by
  cases i with
  | seByte _ _ | sneByte _ _ | seReg _ _ _ | sneReg _ _ _ | skp _ | sknp _ => exact skipIf_pc_le low _
  | jp nnn | call nnn => exact (addrOperand_toNat_le nnn).trans (by decide)
  | jpV0 nnn =>
    have := nnn.isLt
    have := (s.reg 0).isLt
    rw [effect, State.jump_pc, addrOperand_add_reg_toNat]
    omega
  | ret _ =>
    simp only [effect, State.jump_pc]
    split
    case isTrue held => exact (stack ⟨s.sp.val - 1, by omega⟩).trans (by decide)
    case isFalse => exact low.trans (by decide)
  | ldVxK _ =>
    simp only [effect]
    split
    case isTrue => exact low.trans (by decide)
    case isFalse =>
      have noBorrow : (2 : Word) ≤ s.pc := advanced
      rw [BitVec.toNat_sub_of_le noBorrow]
      omega
  | _ => exact low.trans (by decide)

/-- Only `CALL` writes the stack, and it pushes the `pc` of the execute phase. -/
theorem effect_stack_le (i : Instr) {s : State} (low : s.pc.toNat ≤ 0x1000)
    (stack : ∀ k : Fin 16, s.stack[k].toNat ≤ 0x1000) (k : Fin 16) : (effect i s).stack[k].toNat ≤ 0x1000 := by
  cases i with
  | call nnn =>
    simp only [effect]
    split
    case isTrue room =>
      rw [Fin.getElem_fin, Vector.getElem_set]
      split
      · exact low
      · exact stack k
    case isFalse => exact stack k
  | _ => exact stack k

/-- Settles O54: a cycle that completes began at 0x0FFE or below, so `pc` in its execute phase is at most 0x1000. -/
theorem stepKeepsPcBounded : Obligations.StepKeepsPcBounded := by
  intro s t ⟨pc, stack⟩ h
  cases stepCase_of_step h with
  | halted _ => exact ⟨pc, stack⟩
  | fetchFault _ _ => exact ⟨pc, stack⟩
  | fault _ _ _ => exact ⟨pc, stack⟩
  | completed _ low _ _ =>
    have execPc := advance_pc_toNat low
    unfold State.PcBounded
    rw [State.endCycle_pc, State.endCycle_stack]
    exact ⟨effect_pc_le _ (by omega) (by omega) stack, effect_stack_le _ (by omega) stack⟩

/-! ### The fault registers -/

/-- A fetch fault is on record (R91, R224). -/
theorem faulted_fetch_recordOk {s : State} (high : 0x0FFE < s.pc.toNat) :
    (s.faulted 4 0 (maxWith0x1000 s.pc)).FaultRecordOk := by
  rw [State.FaultRecordOk, if_pos (by rfl)]
  exact ⟨rfl, (if_pos high).mpr ⟨rfl, rfl, rfl⟩⟩

/-- A fault that was due still is: a fault changes nothing that the fault due depends on (R229). -/
theorem faulted_due_recordOk {s : State} (low : s.pc.toNat ≤ 0x0FFE) {code : BitVec 3} {addr : Word}
    (due : s.faultDue s.wordAtPc = some (code, addr)) : (s.faulted code s.wordAtPc addr).FaultRecordOk := by
  have inMemory : ¬ 0x0FFE < (s.faulted code s.wordAtPc addr).pc.toNat := not_lt.mpr low
  rw [State.FaultRecordOk, if_pos (by rfl), if_neg inMemory]
  exact ⟨rfl, rfl, due⟩

/-- Settles O55: a fault records what was due and a completed cycle writes no fault register. -/
theorem stepKeepsFaultRecord : Obligations.StepKeepsFaultRecord := by
  intro s t ok h
  cases stepCase_of_step h with
  | halted _ => exact ok
  | fetchFault _ high => exact faulted_fetch_recordOk high
  | fault _ low due => exact faulted_due_recordOk low due
  | completed running _ _ _ =>
    unfold State.FaultRecordOk at ok ⊢
    simpa [running] using ok

/-- Settles O56: the reset state's fields, evaluated. -/
theorem resetMeetsInvariants : Obligations.ResetMeetsInvariants := by
  refine ⟨Memory.wf_nil, ?phase, ?pc, ?record⟩
  case phase => unfold State.TimerPhaseOk; decide
  case pc => unfold State.PcBounded; decide
  case record => unfold State.FaultRecordOk; decide

end Sys2Proof.Machine
end

