-- ==== Sys2Proof/Proofs/CycleFacts.lean ====
section
/-!
The cycle (R90 to R99): that it always answers, where it faults, what it does beside its instruction, the timers over
one cycle and over a run.
-/

namespace Sys2Proof.Machine

/-! ### Totality and faults -/

/-- Settles O7: one of the four cases of a step applies to every state. -/
theorem stepAlwaysAnswersNext : Obligations.StepAlwaysAnswersNext := by
  intro s
  obtain ⟨t, h⟩ := exists_stepCase s
  exact ⟨t, h.step_eq⟩

theorem exists_decoded_of_notDue {s : State} {op : Word} (notDue : s.faultDue op = none) :
    ∃ i, decodeWord op = .ok i := by
  cases decoded : decodeWord op with
  | ok i => exact ⟨i, rfl⟩
  | error e => rw [State.faultDue, decoded] at notDue; cases notDue

/-- Settles O8: the three cases of a running core's step are told apart by `pc` and by the fault due. -/
theorem faultsAreExactAndPrecise : Obligations.FaultsAreExactAndPrecise := by
  intro s running
  refine ⟨step_fetchFault running,
    fun low => ⟨fun code addr due => step_of_faultDue running low due, fun notDue => ?_⟩⟩
  obtain ⟨i, decoded⟩ := exists_decoded_of_notDue notDue
  refine ⟨_, step_of_notDue running low decoded notDue, ?_⟩
  rw [State.endCycle_halted, effect_halted]
  exact running

/-- Settles O9, by induction on the number of cycles. -/
theorem haltedCoreStaysPut : Obligations.HaltedCoreStaysPut := by
  intro s k stopped
  induction k with
  | zero => rfl
  | succ k ih => rw [core_run_succ (step_halted stopped), ih]

/-! ### The step of a decoded instruction -/

/-- Settles O6: the fetch reads the word at `pc`, and the completion of the cycle is written out. -/
theorem stepRunsDecodedInstruction : Obligations.StepRunsDecodedInstruction := by
  intro s i running low decoded
  rw [step, cycle, if_neg (by simp [running]), fetch_ok low]
  simp only [runWord, decoded]
  rfl

/-- Settles O21: `SYS` raises nothing and its change is none. -/
theorem sysIsNoOp : Obligations.SysIsNoOp := by
  refine fun nnn s => ⟨rfl, fun running low decoded => ?_⟩
  exact step_of_notDue running low decoded (by rw [State.faultDue, decoded])

/-! ### What a completed cycle does beside its instruction -/

/-- A cycle that leaves the core running ran a decoded instruction that was due no fault. -/
theorem exists_effect_of_running {s t : State} (running : s.halted = false) (h : step s = .next t)
    (completed : t.halted = false) :
    ∃ i, decodeWord s.wordAtPc = .ok i ∧ t = (effect i s.advance).endCycle := by
  cases stepCase_of_step h with
  | halted stopped => simp [running] at stopped
  | fetchFault _ _ => cases completed
  | fault _ _ _ => cases completed
  | completed _ _ decoded _ => exact ⟨_, decoded, rfl⟩

@[simp] theorem State.advance_K (s : State) : s.advance.K = s.K := State.K_of_inputs rfl rfl

/-- Settles O10: the end of the cycle writes these fields and the instruction keeps them. -/
theorem completedCycleBookkeeping : Obligations.CompletedCycleBookkeeping := by
  intro s t running h completed
  obtain ⟨i, -, rfl⟩ := exists_effect_of_running running h completed
  simp

theorem timer_toNat (tick : Prop) [Decidable tick] (v : Byte) :
    (if tick then timerDecrement v else v).toNat = v.toNat - if tick then 1 else 0 := by
  split
  · exact timerDecrement_toNat v
  · rfl

/-- Settles O11: the tick follows the instruction, and only the two loads write a timer. -/
theorem timersStepOnTicksOnly : Obligations.TimersStepOnTicksOnly := by
  intro s t running h completed
  obtain ⟨i, decoded, rfl⟩ := exists_effect_of_running running h completed
  rw [decoded, State.endCycle_DT, State.endCycle_ST, timer_toNat, timer_toNat, effect_DT, effect_ST, effect_params,
    effect_tacc]
  constructor
  · cases i <;> rfl
  · cases i <;> rfl

/-! ### The cadence of the ticks over a run -/

/-- The phase of the next cycle, as a remainder. -/
theorem step_tacc_of_running {s t : State} (running : s.halted = false) (ok : s.TimerPhaseOk) (h : step s = .next t)
    (completed : t.halted = false) : t.tacc = (s.tacc + 60) % s.params.cycleRate := by
  obtain ⟨rate, phase⟩ := ok
  obtain ⟨gain, -⟩ := completedCycleBookkeeping s t running h completed
  rw [gain]
  split
  case isTrue reached =>
    rw [Nat.mod_eq_sub_mod reached, Nat.mod_eq_of_lt (by omega)]
  case isFalse below => rw [Nat.mod_eq_of_lt (by omega)]

/-- After `c` completed cycles the phase has gained `60*c`, modulo `R`; the core was running all along, since a halted
core stays halted. -/
theorem run_tacc (c : Nat) : ∀ {s t : State}, s.halted = false → s.TimerPhaseOk →
    Sys2Proof.core.run c s = .next t → t.halted = false →
    t.params = s.params ∧ t.tacc = (s.tacc + 60 * c) % s.params.cycleRate := by
  induction c with
  | zero =>
    rintro s t - ⟨-, phase⟩ ⟨⟩ -
    exact ⟨rfl, (Nat.mod_eq_of_lt phase).symm⟩
  | succ c ih =>
    intro s t running ok h completed
    obtain ⟨u, hu⟩ := stepAlwaysAnswersNext s
    rw [core_run_succ hu] at h
    cases stopped : u.halted with
    | true =>
      rw [haltedCoreStaysPut u c stopped] at h
      cases h
      exact absurd (stopped.symm.trans completed) (by decide)
    | false =>
      obtain ⟨params, phase⟩ := ih stopped (stepKeepsTimerPhase s u ok hu) h completed
      obtain ⟨-, -, -, -, same, -⟩ := completedCycleBookkeeping s u running hu stopped
      refine ⟨params.trans same, ?_⟩
      rw [phase, same, step_tacc_of_running running ok hu stopped, Nat.mod_add_mod]
      congr 1
      omega

/-- A multiple of `R` lies between two sums exactly when the remainder of the first reaches it, for a gain of at most
`R`. -/
theorem le_mod_add_iff_div_lt {n r g : Nat} (pos : 0 < g) (le : g ≤ r) : r ≤ n % r + g ↔ n / r < (n + g) / r := by
  have split : (n + g) / r = n / r + (n % r + g) / r := by
    conv_lhs => rw [← Nat.div_add_mod n r, Nat.add_assoc, Nat.mul_add_div (pos.trans_le le)]
  rw [split, Nat.lt_add_right_iff_pos, Nat.div_pos_iff]
  exact ⟨fun reached => ⟨pos.trans_le le, reached⟩, And.right⟩

/-- Settles O12: the phase over a run, and a tick where the accumulated sum passes a multiple of `R`. -/
theorem tickCadenceOverRuns : Obligations.TickCadenceOverRuns := by
  intro c s t running ok zero h completed
  obtain ⟨params, phase⟩ := run_tacc c running ok h completed
  rw [zero, Nat.zero_add] at phase
  refine ⟨phase, ?_⟩
  rw [params, phase, Nat.mul_succ]
  exact le_mod_add_iff_div_lt (by decide) ok.1

end Sys2Proof.Machine
end

