-- ==== Sys2Proof/Proofs/Noninterference.lean ====
section
/-!
What the core does not read (R24 to R26, R31, R33, R126, R160): a step from a state that differs only in such parts
does the same to everything else. Each part has its own override of the state, which commutes with `effect`.
-/

namespace Sys2Proof.Machine

/-- The end of the cycle as one update, field by field (R96, R97). -/
theorem State.endCycle_eq (s : State) :
    s.endCycle =
      { s with
        DT := if s.params.cycleRate ≤ s.tacc + 60 then timerDecrement s.DT else s.DT
        ST := if s.params.cycleRate ≤ s.tacc + 60 then timerDecrement s.ST else s.ST
        tacc := if s.params.cycleRate ≤ s.tacc + 60 then s.tacc + 60 - s.params.cycleRate else s.tacc + 60
        kprev := s.K, inputs := s.inputs.tail, served := s.served + 1 } := by
  rw [State.endCycle, State.sampleKeys, State.timerTick_K]
  by_cases tick : s.params.cycleRate ≤ s.tacc + 60 <;> simp [State.timerTick, tick]

/-! ### The inputs and the key history -/

/-- The state with other inputs lined up and another key history: what the host presents and what it presented. -/
def State.withHost (s : State) (inputs : List CycleInput) (kprev : Word) : State :=
  { s with inputs := inputs, kprev := kprev }

/-- What the instruction reads of the inputs and of the key history is the same in both states. -/
def ReadsAlike (i : Instr) (s s' : State) : Prop :=
  match i with
  | .rnd _ _ => s'.rnd = s.rnd
  | .skp _ | .sknp _ => s'.K = s.K
  | .ldVxK _ => s'.newlyDown = s.newlyDown
  | _ => True

/-- A group write reads no part of the state but the registers. -/
theorem State.setRegBlock_V_of_V : ∀ (bs : List Byte) {s s' : State} (k : Nat), s'.V = s.V →
    (s'.setRegBlock k bs).V = (s.setRegBlock k bs).V
  | [], _, _, _, h => h
  | b :: bs, _, _, k, h => State.setRegBlock_V_of_V bs (k + 1) (by simp only [State.setReg_V, h])

/-- The change of a block load, in a state with the same registers, memory and `I`. -/
theorem loadRegs_V_congr {s s' : State} (x : RegIx) (hV : s'.V = s.V) (hmem : s'.mem = s.mem) (hI : s'.I = s.I) :
    (effect (.loadRegs x) s').V = (effect (.loadRegs x) s).V := by
  simp only [effect, State.ea, hmem, hI]
  exact State.setRegBlock_V_of_V _ 0 hV

theorem effect_withHost {i : Instr} {s : State} {ins : List CycleInput} {k : Word}
    (alike : ReadsAlike i s (s.withHost ins k)) : effect i (s.withHost ins k) = (effect i s).withHost ins k := by
  cases i with
  | rnd x kk =>
    change (s.withHost ins k).rnd = s.rnd at alike
    simp only [effect, alike]
    rfl
  | skp x =>
    change (s.withHost ins k).K = s.K at alike
    simp only [effect, State.keyDown, alike]
    rfl
  | sknp x =>
    change (s.withHost ins k).K = s.K at alike
    simp only [effect, State.keyDown, alike]
    rfl
  | ldVxK x =>
    change (s.withHost ins k).newlyDown = s.newlyDown at alike
    simp only [effect, alike]
    rfl
  | loadRegs x =>
    have loaded := loadRegs_V_congr (s := s) (s' := s.withHost ins k) x rfl rfl rfl
    rw [effect_frame, loaded]
    rfl
  | _ => rfl

theorem endCycle_withHost (s : State) (ins : List CycleInput) (k : Word) :
    (s.withHost ins k).endCycle = s.endCycle.withHost ins.tail (s.withHost ins k).K := by
  rw [State.endCycle_eq, State.endCycle_eq]
  rfl

/-- A step with other inputs and another key history does the same but to those two: a completed cycle takes its own
sample for the history and uses its own input up, and a halted or faulting one keeps both. -/
theorem step_withHost {s t : State} {ins : List CycleInput} {k : Word}
    (alike : ∀ i, decodeWord s.wordAtPc = .ok i → ReadsAlike i s.advance (s.withHost ins k).advance)
    (h : step s = .next t) :
    step (s.withHost ins k) =
      .next (if t.halted then t.withHost ins k else t.withHost ins.tail (s.withHost ins k).K) := by
  cases stepCase_of_step h with
  | halted stopped =>
    rw [if_pos stopped]
    exact step_halted stopped
  | fetchFault running high =>
    rw [if_pos (by rfl)]
    exact step_fetchFault (s := s.withHost ins k) running high
  | fault running low due =>
    rw [if_pos (by rfl)]
    exact step_of_faultDue (s := s.withHost ins k) running low due
  | @completed running low i decoded notDue =>
    have notHalted : ¬ (effect i s.advance).endCycle.halted = true := by simp [running]
    have same : effect i (s.withHost ins k).advance = (effect i s.advance).withHost ins k :=
      effect_withHost (alike i decoded)
    have sample : ((effect i s.advance).withHost ins k).K = (s.withHost ins k).K :=
      State.K_of_inputs rfl (effect_served i s.advance)
    rw [step_of_notDue (s := s.withHost ins k) running low decoded notDue, same, endCycle_withHost, sample,
      if_neg notHalted]

theorem ReadsAlike.refl (i : Instr) (s : State) : ReadsAlike i s s := by
  cases i with
  | rnd _ _ | skp _ | sknp _ | ldVxK _ => exact rfl
  | _ => trivial

/-- What a step leaves in the two fields that `step_withHost` overrides. -/
theorem eq_withHost_of_step {s t : State} (h : step s = .next t) :
    t = if t.halted then t.withHost s.inputs s.kprev else t.withHost s.inputs.tail s.K := by
  have same := step_withHost (ins := s.inputs) (k := s.kprev) (fun i _ => ReadsAlike.refl i s.advance) h
  exact Host.Outcome.next.inj (h.symm.trans same)

/-- A strobe is a step on the one input it presents, after which the inputs lined up are back. -/
theorem strobe_of_step {s t : State} {keys : Word} {r : Byte}
    (h : step (s.withHost [⟨keys, r⟩] s.kprev) = .next t) :
    strobe keys r s = .next { t with inputs := s.inputs } := by
  change cycle { s with inputs := [⟨keys, r⟩] } = _ at h
  rw [strobe, h]

/-- Settles O16: the two cycles are one step with two inputs that differ in the random byte alone, and a completed
cycle uses its input up. -/
theorem randomByteReachesOnlyRnd : Obligations.RandomByteReachesOnlyRnd := by
  intro s keys r r' notRnd
  obtain ⟨t, h⟩ := stepAlwaysAnswersNext (s.withHost [⟨keys, r⟩] s.kprev)
  have alike : ∀ i, decodeWord s.wordAtPc = .ok i →
      ReadsAlike i (s.withHost [⟨keys, r⟩] s.kprev).advance (s.withHost [⟨keys, r'⟩] s.kprev).advance := by
    intro i decoded
    cases i with
    | rnd x kk => exact absurd decoded (notRnd x kk)
    | skp _ | sknp _ | ldVxK _ => exact rfl
    | _ => trivial
  have h' := step_withHost (s := s.withHost [⟨keys, r⟩] s.kprev) alike h
  rw [strobe_of_step h, strobe_of_step (s := s) h']
  have left := eq_withHost_of_step h
  split
  case isTrue stopped =>
    rw [if_pos stopped] at left
    rw [left]
    rfl
  case isFalse ran =>
    rw [if_neg ran] at left
    rw [left]
    rfl

/-- Settles O17: with other keys the step differs in the key history alone, which takes the cycle's sample. -/
theorem keysReachOnlyKeyInstructions : Obligations.KeysReachOnlyKeyInstructions := by
  intro s t t' k k' r notKey h h'
  obtain ⟨u, hu⟩ := stepAlwaysAnswersNext (s.withHost [⟨k, r⟩] s.kprev)
  have alike : ∀ i, decodeWord s.wordAtPc = .ok i →
      ReadsAlike i (s.withHost [⟨k, r⟩] s.kprev).advance (s.withHost [⟨k', r⟩] s.kprev).advance := by
    intro i decoded
    obtain ⟨notSkp, notSknp, notWait⟩ := forall_and.mp notKey |>.imp_right forall_and.mp
    cases i with
    | rnd _ _ => exact rfl
    | skp x => exact absurd decoded (notSkp x)
    | sknp x => exact absurd decoded (notSknp x)
    | ldVxK x => exact absurd decoded (notWait x)
    | _ => trivial
  have hu' := step_withHost (s := s.withHost [⟨k, r⟩] s.kprev) alike hu
  rw [strobe_of_step hu] at h
  rw [strobe_of_step (s := s) hu'] at h'
  cases h
  cases h'
  split <;> rfl

/-- Settles O18: the step overwrites the key history in a completed cycle, whatever it was. -/
theorem kprevReadOnlyByKeyWait : Obligations.KprevReadOnlyByKeyWait := by
  intro s t k notWait h completed
  have alike : ∀ i, decodeWord s.wordAtPc = .ok i → ReadsAlike i s.advance (s.withHost s.inputs k).advance := by
    intro i decoded
    cases i with
    | rnd _ _ | skp _ | sknp _ => exact rfl
    | ldVxK x => exact absurd decoded (notWait x)
    | _ => trivial
  have h' := step_withHost alike h
  have same := eq_withHost_of_step h
  rw [completed, if_neg (by decide)] at h' same
  exact h'.trans (congrArg _ same.symm)

/-! ### The sound timer and the dirty bit -/

/-- The state with another sound timer and another dirty bit. -/
def State.withSignals (s : State) (ST : Byte) (dirty : Bool) : State :=
  { s with ST := ST, dirty := dirty }

theorem effect_withSignals (i : Instr) (s : State) (v : Byte) (d : Bool) :
    ∃ v' d', effect i (s.withSignals v d) = (effect i s).withSignals v' d' := by
  cases i with
  | cls _ => exact ⟨v, true, rfl⟩
  | drw _ _ _ => exact ⟨v, true, rfl⟩
  | ldStVx x => exact ⟨s.reg x, d, rfl⟩
  | loadRegs x =>
    have loaded := loadRegs_V_congr (s := s) (s' := s.withSignals v d) x rfl rfl rfl
    refine ⟨v, d, ?_⟩
    rw [effect_frame, loaded]
    rfl
  | _ => exact ⟨v, d, rfl⟩

theorem endCycle_withSignals (s : State) (v : Byte) (d : Bool) :
    ∃ v', (s.withSignals v d).endCycle = s.endCycle.withSignals v' d := by
  refine ⟨(s.withSignals v d).endCycle.ST, ?_⟩
  rw [State.endCycle_eq, State.endCycle_eq]
  rfl

/-- Settles O20, over the four cases of a step. -/
theorem soundTimerAndDirtyAreUnread : Obligations.SoundTimerAndDirtyAreUnread := by
  intro s t v d h
  cases stepCase_of_step h with
  | halted stopped => exact ⟨v, d, step_halted (s := s.withSignals v d) stopped⟩
  | fetchFault running high => exact ⟨v, d, step_fetchFault (s := s.withSignals v d) running high⟩
  | fault running low due => exact ⟨v, d, step_of_faultDue (s := s.withSignals v d) running low due⟩
  | @completed running low i decoded notDue =>
    obtain ⟨v₁, d₁, changed⟩ := effect_withSignals i s.advance v d
    obtain ⟨v₂, ended⟩ := endCycle_withSignals (effect i s.advance) v₁ d₁
    refine ⟨v₂, d₁, (step_of_notDue (s := s.withSignals v d) running low decoded notDue).trans (congrArg _ ?_)⟩
    exact (congrArg State.endCycle changed).trans ended

/-! ### The dead slots of the return stack -/

/-- The popped return address lies below `sp`. -/
theorem top_eq_of_below {s : State} {stack : Vector Word 16}
    (below : ∀ k : Fin 16, k.val < s.sp.val → stack[k] = s.stack[k]) (held : 0 < s.sp.val) :
    State.top { s with stack := stack } held = s.top held :=
  below ⟨s.sp.val - 1, by omega⟩ (Nat.sub_lt held Nat.one_pos)

/-- States that agree below `sp` agree in what an instruction makes of them: `RET` reads the slot below `sp`, and
`CALL` writes the slot that the new `sp` makes live. -/
theorem effect_agreeBelowSp (i : Instr) {s s' : State} (h : s.AgreeBelowSp s') :
    (effect i s).AgreeBelowSp (effect i s') := by
  obtain ⟨same, below⟩ := h
  generalize s'.stack = stack at same below
  subst same
  cases i with
  | ret _ =>
    refine ⟨?_, fun k live => below k (live.trans_le (Nat.sub_le _ _))⟩
    simp only [effect, top_eq_of_below below]
    rfl
  | call _ =>
    refine ⟨rfl, fun k live => ?_⟩
    replace live : k.val < min (s.sp.val + 1) 16 := live
    simp only [effect]
    split
    case isTrue room =>
      simp only [Fin.getElem_fin, Vector.getElem_set]
      split
      case isTrue => rfl
      case isFalse other => exact below k (by omega)
    case isFalse full => exact below k (by omega)
  | loadRegs x =>
    have loaded := loadRegs_V_congr (s := s) (s' := { s with stack := stack }) x rfl rfl rfl
    refine ⟨?_, below⟩
    rw [effect_frame, loaded]
    rfl
  | _ => exact ⟨rfl, below⟩

theorem endCycle_agreeBelowSp {s s' : State} (h : s.AgreeBelowSp s') : s.endCycle.AgreeBelowSp s'.endCycle := by
  obtain ⟨same, below⟩ := h
  generalize s'.stack = stack at same below
  subst same
  rw [State.endCycle_eq, State.endCycle_eq]
  exact ⟨rfl, below⟩

/-- Settles O19, over the four cases of a step: what a cycle tests before it runs its instruction is no stack slot. -/
theorem deadStackSlotsAreUnobservable : Obligations.DeadStackSlotsAreUnobservable := by
  intro s s' t h hs
  have agree := h
  obtain ⟨same, below⟩ := h
  generalize s'.stack = stack at same below
  subst same
  cases stepCase_of_step hs with
  | halted stopped => exact ⟨_, step_halted (s := { s with stack := stack }) stopped, agree⟩
  | fetchFault running high => exact ⟨_, step_fetchFault (s := { s with stack := stack }) running high, rfl, below⟩
  | fault running low due => exact ⟨_, step_of_faultDue (s := { s with stack := stack }) running low due, rfl, below⟩
  | @completed running low i decoded notDue =>
    have advanced : s.advance.AgreeBelowSp (State.advance { s with stack := stack }) := ⟨rfl, below⟩
    exact ⟨_, step_of_notDue (s := { s with stack := stack }) running low decoded notDue,
      endCycle_agreeBelowSp (effect_agreeBelowSp i advanced)⟩

end Sys2Proof.Machine
end

