-- ==== Sys2Proof/Proofs/Draw.lean ====
section
/-!
The draw (R182 to R185). `Blit.Draws b b' bits` says what drawing a set of pixels once does to the buffer and to the
collision; it holds of a toggle and of a byte XOR, and passes to draws of disjoint sets one after the other. Both forms
of the draw are built of these, so each draws the sprite's bits, and what a draw of given bits leaves is determined.
-/

namespace Sys2Proof.Machine

/-- A set of pixels, as its membership test. -/
abbrev PixelSet := Fin 64 → Fin 32 → Bool

/-- `b'` is `b` after the pixels of `bits` were each toggled once, a lit one with a collision. -/
def Blit.Draws (b b' : Blit) (bits : PixelSet) : Prop :=
  (∀ px py, b'.fb.pixel px py = (b.fb.pixel px py ^^ bits px py)) ∧
  (b'.coll = true ↔ b.coll = true ∨ ∃ px py, b.fb.pixel px py = true ∧ bits px py = true)

theorem Blit.Draws.none {b : Blit} {bits : PixelSet} (empty : ∀ px py, bits px py = false) : b.Draws b bits :=
  ⟨by simp [empty], by simp [empty]⟩

/-- Draws of disjoint sets: the second meets its pixels as they were before the first. -/
theorem Blit.Draws.trans {b₀ b₁ b₂ : Blit} {f g : PixelSet} (hf : b₀.Draws b₁ f) (hg : b₁.Draws b₂ g)
    (disjoint : ∀ px py, f px py = true → g px py = false) :
    b₀.Draws b₂ fun px py => f px py || g px py := by
  obtain ⟨pix₁, coll₁⟩ := hf
  obtain ⟨pix₂, coll₂⟩ := hg
  constructor
  · intro px py
    rw [pix₂, pix₁]
    have := disjoint px py
    cases hfp : f px py <;> simp_all
  · have kept : ∀ px py, g px py = true → b₁.fb.pixel px py = b₀.fb.pixel px py := fun px py hgp => by
      have : f px py = false := by
        by_contra hfp
        simp [disjoint px py (by simpa using hfp)] at hgp
      simp [pix₁, this]
    simp only [coll₂, coll₁, Bool.or_eq_true, or_assoc]
    refine or_congr_right ⟨?_, ?_⟩
    · rintro (⟨px, py, lit, hfp⟩ | ⟨px, py, lit, hgp⟩)
      · exact ⟨px, py, lit, .inl hfp⟩
      · exact ⟨px, py, kept px py hgp ▸ lit, .inr hgp⟩
    · rintro ⟨px, py, lit, hfp | hgp⟩
      · exact .inl ⟨px, py, lit, hfp⟩
      · exact .inr ⟨px, py, (kept px py hgp).trans lit, hgp⟩

theorem Blit.Draws.congr {b b' : Blit} {f g : PixelSet} (h : b.Draws b' f) (same : ∀ px py, f px py = g px py) :
    b.Draws b' g := by
  have : f = g := funext fun px => funext fun py => same px py
  exact this ▸ h

/-- What a draw leaves is determined by the pixels it draws. -/
theorem Blit.Draws.unique {b b₁ b₂ : Blit} {f : PixelSet} (h₁ : b.Draws b₁ f) (h₂ : b.Draws b₂ f) : b₁ = b₂ := by
  obtain ⟨pix₁, coll₁⟩ := h₁
  obtain ⟨pix₂, coll₂⟩ := h₂
  have hfb : b₁.fb = b₂.fb := Frame.ext_pixel fun px py => (pix₁ px py).trans (pix₂ px py).symm
  have hcoll : b₁.coll = b₂.coll := Bool.eq_iff_iff.mpr (coll₁.trans coll₂.symm)
  cases b₁
  cases b₂
  simp_all

/-! ### One pixel, one row, all rows -/

theorem Blit.toggle_draws (b : Blit) (px : Fin 64) (py : Fin 32) :
    b.Draws (b.toggle px py) fun qx qy => decide (qx = px ∧ qy = py) := by
  constructor
  · intro qx qy
    rw [Blit.toggle, Frame.pixel_setPixel]
    by_cases h : qx = px ∧ qy = py
    · obtain ⟨rfl, rfl⟩ := h
      simp
    · simp [h]
  · simp only [Blit.toggle, Bool.or_eq_true, decide_eq_true_eq]
    refine or_congr_right ⟨fun lit => ⟨px, py, lit, rfl, rfl⟩, ?_⟩
    rintro ⟨_, _, lit, rfl, rfl⟩
    exact lit

/-- The column offset of a pixel from the start of the sprite, wrapping around the right edge (R182, R184). -/
def columnOffset (x0 px : Fin 64) : Nat := (px.val + 64 - x0.val) % 64

theorem eq_spriteColumn_iff (x0 px : Fin 64) {j : Nat} (hj : j < 64) :
    px = spriteColumn x0 j ↔ columnOffset x0 px = j := by
  rw [Fin.ext_iff, columnOffset]
  change px.val = (x0.val + j) % 64 ↔ _
  have := x0.isLt
  have := px.isLt
  omega

/-- The pixels of the first `n` columns of one sprite byte drawn on row `py0`. -/
def rowBits (x0 : Fin 64) (py0 : Fin 32) (sprite : Byte) (n : Nat) : PixelSet := fun px py =>
  decide (py = py0) && decide (columnOffset x0 px < n) && sprite.getLsbD (7 - columnOffset x0 px)

/-- One column of a row: the pixel at offset `j` where the sprite bit is 1 (R182). -/
theorem Blit.column_draws (b : Blit) (x0 : Fin 64) (py : Fin 32) (sprite : Byte) {j : Nat} (hj : j < 64) :
    b.Draws (if sprite.getLsbD (7 - j) then b.toggle (spriteColumn x0 j) py else b) fun px qy =>
      decide (qy = py) && decide (columnOffset x0 px = j) && sprite.getLsbD (7 - columnOffset x0 px) := by
  split
  case isTrue set =>
    refine (b.toggle_draws (spriteColumn x0 j) py).congr fun px qy => ?_
    simp only [eq_spriteColumn_iff x0 px hj]
    by_cases off : columnOffset x0 px = j
    · simp [off, set]
    · simp [off]
  case isFalse unset =>
    refine .none fun px qy => ?_
    by_cases off : columnOffset x0 px = j
    · simp [off, unset]
    · simp [off]

/-- A row draws its columns one after the other, each a set of its own. -/
theorem Blit.columns_draw (b : Blit) (x0 : Fin 64) (py : Fin 32) (sprite : Byte) (n : Nat) (hn : n ≤ 64) :
    b.Draws
      ((List.range n).foldl
        (fun acc j => if sprite.getLsbD (7 - j) then acc.toggle (spriteColumn x0 j) py else acc) b)
      (rowBits x0 py sprite n) := by
  induction n with
  | zero => exact .none fun px qy => by simp [rowBits]
  | succ n ih =>
    rw [List.range_succ, List.foldl_append, List.foldl_cons, List.foldl_nil]
    refine ((ih (by omega)).trans (Blit.column_draws _ x0 py sprite (by omega)) fun px qy before => ?_).congr
      fun px qy => ?_
    · simp only [rowBits, Bool.and_eq_true, decide_eq_true_eq] at before
      obtain ⟨⟨-, off⟩, -⟩ := before
      simp [show columnOffset x0 px ≠ n by omega]
    · rw [rowBits, rowBits, ← Bool.and_or_distrib_right, ← Bool.and_or_distrib_left, ← Bool.decide_or]
      simp only [Nat.lt_succ_iff_lt_or_eq]

theorem Blit.row_draws (b : Blit) (x0 : Fin 64) (py : Fin 32) (sprite : Byte) :
    b.Draws (b.row x0 py sprite) (rowBits x0 py sprite 8) :=
  b.columns_draw x0 py sprite 8 (by decide)

/-- The pixels of a sprite drawn downwards from row `y`, where a row at 32 or below is not on the screen. -/
def spriteRows (x0 : Fin 64) (y : Nat) (sprite : List Byte) : PixelSet := fun px py =>
  decide (y ≤ py.val) && decide (columnOffset x0 px < 8) &&
    (sprite.getD (py.val - y) 0).getLsbD (7 - columnOffset x0 px)

theorem spriteRows_nil (x0 : Fin 64) (y : Nat) (px : Fin 64) (py : Fin 32) : spriteRows x0 y [] px py = false := by
  simp [spriteRows]

/-- Off the screen nothing of a sprite is left to draw. -/
theorem spriteRows_off (x0 : Fin 64) {y : Nat} (off : ¬ y < 32) (sprite : List Byte) (px : Fin 64) (py : Fin 32) :
    spriteRows x0 y sprite px py = false := by
  have : ¬ y ≤ py.val := by omega
  simp [spriteRows, this]

/-- The first byte of a sprite is its top row, and the others are a sprite from the next row on. -/
theorem spriteRows_cons (x0 : Fin 64) {y : Nat} (h : y < 32) (b : Byte) (rest : List Byte) (px : Fin 64)
    (py : Fin 32) :
    (rowBits x0 ⟨y, h⟩ b 8 px py || spriteRows x0 (y + 1) rest px py) = spriteRows x0 y (b :: rest) px py := by
  simp only [rowBits, spriteRows, Fin.ext_iff]
  rcases lt_trichotomy py.val y with above | top | below
  · simp [show ¬ py.val = y by omega, show ¬ y ≤ py.val by omega, show ¬ y + 1 ≤ py.val by omega]
  · simp [top]
  · simp [show ¬ py.val = y by omega, show y ≤ py.val by omega, show y + 1 ≤ py.val by omega,
      show py.val - y = py.val - (y + 1) + 1 by omega]

/-- The top row of a sprite and the rows below it share no pixel. -/
theorem spriteRows_below_disjoint {x0 : Fin 64} {y : Nat} {h : y < 32} {b : Byte} {n : Nat} {px : Fin 64}
    {py : Fin 32} (top : rowBits x0 ⟨y, h⟩ b n px py = true) (rest : List Byte) : spriteRows x0 (y + 1) rest px py = false := by
  simp only [rowBits, Bool.and_eq_true, decide_eq_true_eq, Fin.ext_iff] at top
  obtain ⟨⟨row, -⟩, -⟩ := top
  simp [spriteRows, row]

theorem Blit.rows_draw (x0 : Fin 64) (sprite : List Byte) :
    ∀ (b : Blit) (y : Nat), b.Draws (b.rows x0 y sprite) (spriteRows x0 y sprite) := by
  induction sprite with
  | nil => exact fun b y => .none fun px py => spriteRows_nil x0 y px py
  | cons byte rest ih =>
    intro b y
    rw [Blit.rows]
    split
    case isTrue h =>
      exact ((b.row_draws x0 ⟨y, h⟩ byte).trans (ih _ (y + 1))
        fun _ _ top => spriteRows_below_disjoint top rest).congr (spriteRows_cons x0 h byte rest)
    case isFalse off =>
      exact (ih b (y + 1)).congr fun px py => by
        rw [spriteRows_off x0 off, spriteRows_off x0 (by omega)]

/-- The statements' sprite bit is the sprite's rows from its start row. -/
theorem spriteRows_eq_spriteBit (x0 : Fin 64) (y0 : Fin 32) (sprite : List Byte) (px : Fin 64) (py : Fin 32) :
    spriteRows x0 y0.val sprite px py = spriteBit x0 y0 sprite px py := by
  rw [spriteRows, spriteBit, columnOffset, List.getD_eq_getElem?_getD]
  cases sprite[py.val - y0.val]? with
  | none => simp
  | some b => rfl

/-- The draw toggles the pixels under a sprite bit of 1, once each (R182). -/
theorem Frame.draw_draws (f : Frame) (x0 : Fin 64) (y0 : Fin 32) (sprite : List Byte) :
    (Blit.mk f false).Draws (f.draw x0 y0 sprite) (spriteBit x0 y0 sprite) :=
  (Blit.rows_draw x0 sprite _ y0.val).congr (spriteRows_eq_spriteBit x0 y0 sprite)

/-- Settles O43: the pixel half of `Frame.draw_draws`. -/
theorem drawXorsSpriteBits : Obligations.DrawXorsSpriteBits :=
  fun f x0 y0 sprite => (f.draw_draws x0 y0 sprite).1

/-- Settles O44: the collision half of `Frame.draw_draws`, from no collision at the start. -/
theorem collisionIffLitPixelCleared : Obligations.CollisionIffLitPixelCleared := by
  intro f x0 y0 sprite
  obtain ⟨-, coll⟩ := f.draw_draws x0 y0 sprite
  simpa using coll

/-- Settles O46: the two XORs cancel, and what the second draw finds lit under the sprite was off before the first. -/
theorem drawingTwiceCancels : Obligations.DrawingTwiceCancels := by
  have second : ∀ (f : Frame) (x0 : Fin 64) (y0 : Fin 32) (sprite : List Byte),
      ((f.draw x0 y0 sprite).fb.draw x0 y0 sprite).coll = true ↔
        ∃ px py, f.pixel px py = false ∧ spriteBit x0 y0 sprite px py = true := by
    intro f x0 y0 sprite
    rw [collisionIffLitPixelCleared]
    refine exists_congr fun px => exists_congr fun py => and_congr_left fun under => ?_
    rw [drawXorsSpriteBits, under, Bool.xor_true, Bool.not_eq_true']
  refine fun f x0 y0 sprite => ⟨Frame.ext_pixel fun px py => ?_, second f x0 y0 sprite, ?_⟩
  · rw [drawXorsSpriteBits, drawXorsSpriteBits, Bool.xor_assoc, Bool.xor_self, Bool.xor_false]
  · simp [second, Frame.pixel_clear]

/-! ### The byte form (R185) -/

/-- The pixels under the set bits of a contribution to byte `k` of the buffer (R10). -/
def byteBits (k : Fin 256) (c : Byte) : PixelSet := fun px py =>
  decide (pixelByte px py = k) && c.getLsbD (7 - px.val % 8)

/-- Every bit of every byte of the buffer is a pixel (R10). -/
theorem exists_pixel_of_bit (k : Fin 256) {i : Nat} (hi : i < 8) :
    ∃ px py, pixelByte px py = k ∧ 7 - px.val % 8 = i := by
  refine ⟨⟨8 * (k.val % 8) + (7 - i), by omega⟩, ⟨k.val / 8, by omega⟩, Fin.ext ?_, ?_⟩
  · change (8 * (k.val % 8) + (7 - i)) / 8 + k.val / 8 * 8 = k.val
    omega
  · change 7 - (8 * (k.val % 8) + (7 - i)) % 8 = i
    omega

theorem exists_bit_of_ne_zero {v : Byte} (h : v ≠ 0) : ∃ i < 8, v.getLsbD i = true := by
  by_contra unset
  push Not at unset
  exact h (BitVec.eq_of_getLsbD_eq fun i hi => by simpa using unset i hi)

theorem Blit.xorByte_draws (b : Blit) (k : Fin 256) (c : Byte) : b.Draws (b.xorByte k c) (byteBits k c) := by
  constructor
  · intro px py
    rw [Blit.xorByte, Frame.pixel, Frame.byte_setByte, byteBits, Frame.pixel]
    split
    case isTrue here => simp [here]
    case isFalse elsewhere => simp [elsewhere]
  · simp only [Blit.xorByte, Bool.or_eq_true, bne_iff_ne]
    refine or_congr_right ⟨fun hit => ?_, ?_⟩
    · obtain ⟨i, hi, bit⟩ := exists_bit_of_ne_zero hit
      obtain ⟨px, py, rfl, rfl⟩ := exists_pixel_of_bit k hi
      rw [BitVec.getLsbD_and, Bool.and_eq_true] at bit
      exact ⟨px, py, bit.1, by simp [byteBits, bit.2]⟩
    · rintro ⟨px, py, lit, under⟩ miss
      simp only [byteBits, Bool.and_eq_true, decide_eq_true_eq] at under
      obtain ⟨rfl, bit⟩ := under
      have both := congrArg (BitVec.getLsbD · (7 - px.val % 8)) miss
      simp [bit, show b.fb.byte (pixelByte px py) |>.getLsbD (7 - px.val % 8) from lit] at both

/-- The left contribution is the part of the row that lies in the byte of the start column. -/
theorem leftBits_eq (x0 px : Fin 64) (py qy : Fin 32) (sprite : Byte) :
    byteBits (leftByte x0 py) (sprite >>> (x0.val % 8)) px qy =
      (rowBits x0 py sprite 8 px qy && decide (px.val / 8 = x0.val / 8)) := by
  simp only [byteBits, rowBits, pixelByte, leftByte, Fin.ext_iff, BitVec.getLsbD_ushiftRight, columnOffset]
  by_cases here : qy.val = py.val ∧ px.val / 8 = x0.val / 8
  · obtain ⟨row, column⟩ := here
    by_cases inside : x0.val % 8 ≤ px.val % 8
    · have off : (px.val + 64 - x0.val) % 64 = px.val % 8 - x0.val % 8 := by omega
      simp [row, column, off, show x0.val / 8 + py.val * 8 = x0.val / 8 + 8 * py.val by omega,
        show px.val % 8 - x0.val % 8 < 8 by omega,
        show x0.val % 8 + (7 - px.val % 8) = 7 - (px.val % 8 - x0.val % 8) by omega]
    · simp [BitVec.getLsbD_of_ge sprite (x0.val % 8 + (7 - px.val % 8)) (by omega),
        show ¬ (px.val + 64 - x0.val) % 64 < 8 by omega]
  · have : ¬ px.val / 8 + qy.val * 8 = x0.val / 8 + 8 * py.val := by omega
    simp only [this, decide_false, Bool.false_and]
    by_cases row : qy.val = py.val
    · simp [show ¬ px.val / 8 = x0.val / 8 from fun column => here ⟨row, column⟩]
    · simp [row]

/-- The right contribution is the rest of the row, in the next byte around the right edge. -/
theorem rightBits_eq (x0 px : Fin 64) (py qy : Fin 32) (sprite : Byte) :
    byteBits (rightByte x0 py) (sprite <<< (8 - x0.val % 8)) px qy =
      (rowBits x0 py sprite 8 px qy && !decide (px.val / 8 = x0.val / 8)) := by
  simp only [byteBits, rowBits, pixelByte, rightByte, Fin.ext_iff, BitVec.getLsbD_shiftLeft, columnOffset]
  by_cases here : qy.val = py.val ∧ px.val / 8 = (x0.val / 8 + 1) % 8
  · obtain ⟨row, column⟩ := here
    have next : ¬ px.val / 8 = x0.val / 8 := by omega
    by_cases inside : px.val % 8 < x0.val % 8
    · have off : (px.val + 64 - x0.val) % 64 = px.val % 8 + 8 - x0.val % 8 := by omega
      simp [row, next, off, show px.val / 8 + py.val * 8 = (x0.val / 8 + 1) % 8 + 8 * py.val by omega,
        show px.val % 8 + 8 - x0.val % 8 < 8 by omega, show 7 - px.val % 8 < 8 by omega,
        show 8 - x0.val % 8 ≤ 7 - px.val % 8 by omega,
        show 7 - px.val % 8 - (8 - x0.val % 8) = 7 - (px.val % 8 + 8 - x0.val % 8) by omega]
    · simp [show ¬ (px.val + 64 - x0.val) % 64 < 8 by omega, show 7 - px.val % 8 < 8 - x0.val % 8 by omega]
  · have : ¬ px.val / 8 + qy.val * 8 = (x0.val / 8 + 1) % 8 + 8 * py.val := by omega
    simp only [this, decide_false, Bool.false_and]
    by_cases row : qy.val = py.val
    · by_cases start : px.val / 8 = x0.val / 8
      · simp [start]
      · simp [show ¬ (px.val + 64 - x0.val) % 64 < 8 by omega]
    · simp [row]

/-- With no shift the whole row lies in the byte of the start column. -/
theorem rowBits_in_startByte {x0 px : Fin 64} {py qy : Fin 32} {sprite : Byte} (aligned : x0.val % 8 = 0)
    (under : rowBits x0 py sprite 8 px qy = true) : px.val / 8 = x0.val / 8 := by
  simp only [rowBits, columnOffset, Bool.and_eq_true, decide_eq_true_eq] at under
  obtain ⟨⟨-, offset⟩, -⟩ := under
  have := of_decide_eq_true offset
  omega

/-- The two contributions draw the same row, each its own part of it. -/
theorem Blit.rowBytes_draws (b : Blit) (x0 : Fin 64) (py : Fin 32) (sprite : Byte) :
    b.Draws (b.rowBytes x0 py sprite) (rowBits x0 py sprite 8) := by
  have left := (b.xorByte_draws (leftByte x0 py) (sprite >>> (x0.val % 8))).congr
    fun px qy => leftBits_eq x0 px py qy sprite
  unfold Blit.rowBytes
  dsimp only
  split
  case isTrue aligned =>
    refine left.congr fun px qy => ?_
    cases under : rowBits x0 py sprite 8 px qy with
    | false => rfl
    | true => simp [rowBits_in_startByte aligned under]
  case isFalse =>
    have right := (Blit.xorByte_draws (b.xorByte (leftByte x0 py) (sprite >>> (x0.val % 8))) (rightByte x0 py)
      (sprite <<< (8 - x0.val % 8))).congr fun px qy => rightBits_eq x0 px py qy sprite
    refine (left.trans right fun px qy start => ?_).congr fun px qy => ?_
    · simp [(Bool.and_eq_true_iff.mp start).2]
    · rw [← Bool.and_or_distrib_left, Bool.or_not_self, Bool.and_true]

theorem Blit.rowsBytes_draw (x0 : Fin 64) (sprite : List Byte) :
    ∀ (b : Blit) (y : Nat), b.Draws (b.rowsBytes x0 y sprite) (spriteRows x0 y sprite) := by
  induction sprite with
  | nil => exact fun b y => .none fun px py => spriteRows_nil x0 y px py
  | cons byte rest ih =>
    intro b y
    rw [Blit.rowsBytes]
    split
    case isTrue h =>
      exact ((b.rowBytes_draws x0 ⟨y, h⟩ byte).trans (ih _ (y + 1))
        fun _ _ top => spriteRows_below_disjoint top rest).congr (spriteRows_cons x0 h byte rest)
    case isFalse off =>
      exact (ih b (y + 1)).congr fun px py => by
        rw [spriteRows_off x0 off, spriteRows_off x0 (by omega)]

/-- Settles O45: both forms draw the rows of the sprite, and that determines what they leave. -/
theorem byteFormEqualsPixelForm : Obligations.ByteFormEqualsPixelForm :=
  fun _ x0 y0 sprite => (Blit.rowsBytes_draw x0 sprite _ y0.val).unique (Blit.rows_draw x0 sprite _ y0.val)

end Sys2Proof.Machine
end

