-- ==== Sys2Proof/Proofs/ControlFlow.lean ====
section
/-!
The control-flow instructions (R140 to R149) and the ignored bits (R76 to R78).
-/

namespace Sys2Proof.Machine

/-! ### `RET` and `CALL` -/

section
variable {s : State}

theorem notDue_ret (held : s.sp.val ≠ 0) (ign : Nibble) : s.faultDue (encode (.ret ign)) = none := by
  rw [faultDue_encode_ret, if_neg held]

theorem notDue_call (room : s.sp.val ≠ 16) (nnn : Addr12) : s.faultDue (encode (.call nnn)) = none := by
  rw [faultDue_encode_call, if_neg room]

theorem effect_ret_pc (held : s.sp.val ≠ 0) (ign : Nibble) :
    (effect (.ret ign) s).pc = s.top (Nat.pos_of_ne_zero held) :=
  dif_pos (Nat.pos_of_ne_zero held)

theorem effect_call_sp (room : s.sp.val ≠ 16) (nnn : Addr12) : (effect (.call nnn) s).sp.val = s.sp.val + 1 := by
  have := s.sp.isLt
  exact Nat.min_eq_left (by omega)

theorem effect_call_stack (room : s.sp.val ≠ 16) (nnn : Addr12) :
    (effect (.call nnn) s).stack = s.stack.set s.sp.val s.pc (by omega) := by
  have := s.sp.isLt
  exact dif_pos (by omega)

end

/-- Settles O22: the held stack is popped and the empty one raises. -/
theorem retPopsOrUnderflows : Obligations.RetPopsOrUnderflows := by
  intro ign s
  refine ⟨fun held => ⟨_, exec_of_notDue (notDue_ret held ign), rfl, ?popped, rfl, fun _ => rfl⟩, fun empty => ?_⟩
  case popped =>
    have below : s.sp.val - 1 < 16 := by omega
    rw [effect_ret_pc held]
    exact Vector.getElem?_eq_getElem below
  exact exec_of_faultDue rfl (by rw [faultDue_encode_ret, if_pos empty])

theorem decodeWord_call (nnn : Addr12) : decodeWord (0x2#4 ++ nnn) = .ok (.call nnn) :=
  decodeWord_encode (i := .call nnn) rfl

/-- Settles O24: with room the slot at `sp` takes the return address and the others stay; a full stack raises. -/
theorem callPushesOrOverflows : Obligations.CallPushesOrOverflows := by
  intro nnn
  refine ⟨decodeWord_call nnn, fun s => ⟨fun room => ?pushed, fun full => ?full⟩⟩
  case full => exact exec_of_faultDue rfl (by rw [faultDue_encode_call, if_pos full])
  case pushed =>
    have below : s.sp.val < 16 := by omega
    refine ⟨_, exec_of_notDue (notDue_call room nnn), addrOperand_toNat nnn, effect_call_sp room nnn, ?slot, ?others,
      rfl, fun _ => rfl⟩
    case slot => rw [effect_call_stack room, Vector.getElem?_set_self]
    case others =>
      intro k other
      simp only [effect_call_stack room, Fin.getElem_fin]
      exact Vector.getElem_set_ne below k.isLt (Ne.symm other)

/-- Settles O25: `RET` pops the slot that `CALL` pushed. -/
theorem callThenRetReturns : Obligations.CallThenRetReturns := by
  intro nnn ign s room
  have below : s.sp.val < 16 := by omega
  have sp := effect_call_sp room nnn
  have held : (effect (.call nnn) s).sp.val ≠ 0 := by omega
  refine ⟨_, _, exec_of_notDue (notDue_call room nnn), exec_of_notDue (notDue_ret held ign), ?frame,
    fun k live => ?slots⟩
  case frame =>
    have popped : (effect (.ret ign) (effect (.call nnn) s)).pc = s.pc := by
      rw [effect_ret_pc held, State.top]
      simp only [effect_call_stack room, sp, Nat.add_sub_cancel, Vector.getElem_set_self]
    have depth : (effect (.ret ign) (effect (.call nnn) s)).sp = s.sp := Fin.ext (by
      change (effect (.call nnn) s).sp.val - 1 = s.sp.val
      omega)
    rw [effect_frame, popped, depth]
    rfl
  case slots =>
    change (effect (.call nnn) s).stack[k] = _
    simp only [effect_call_stack room, Fin.getElem_fin]
    exact Vector.getElem_set_ne below k.isLt (by omega)

/-! ### Skips and jumps -/

theorem State.skipIf_beq (s : State) (a b : Byte) :
    s.skipIf (a == b) = { s with pc := if a = b then s.pc + 2 else s.pc } := by
  by_cases h : a = b <;> simp [State.skipIf, h]

theorem State.skipIf_bne (s : State) (a b : Byte) :
    s.skipIf (a != b) = { s with pc := if a ≠ b then s.pc + 2 else s.pc } := by
  by_cases h : a = b <;> simp [State.skipIf, h]

/-- Settles O26: the four meanings are `State.skipIf` of the comparison. -/
theorem skipsAdvancePcOnCondition : Obligations.SkipsAdvancePcOnCondition := by
  intro x y kk ign s
  exact ⟨congrArg _ (s.skipIf_beq (s.reg x) kk), congrArg _ (s.skipIf_bne (s.reg x) kk),
    congrArg _ (s.skipIf_beq (s.reg x) (s.reg y)), congrArg _ (s.skipIf_bne (s.reg x) (s.reg y))⟩

/-- Settles O27: the sum fits in 16 bits. -/
theorem jpV0AddsOffset : Obligations.JpV0AddsOffset := by
  intro nnn s
  have sum := addrOperand_add_reg_toNat nnn s 0
  refine ⟨s.jump (addrOperand nnn + s.regAsWord 0), rfl, sum, ?_, rfl, fun _ => rfl⟩
  have := nnn.isLt
  have := (s.reg 0).isLt
  exact sum.trans_le (by omega)

/-- Settles O5: the meanings do not read the ignored field; `RET` has it in its fault alone. -/
theorem ignoredBitsHaveNoEffect : Obligations.IgnoredBitsHaveNoEffect := by
  intro x y a b s
  refine ⟨rfl, fun held => ?_, rfl, rfl, rfl, rfl⟩
  exact (exec_of_notDue (notDue_ret held a)).trans (exec_of_notDue (notDue_ret held b)).symm

end Sys2Proof.Machine
end

