-- ==== Sys2Proof/Proofs/RegisterInstructions.lean ====
section
/-!
Loads, logic, arithmetic and the timer instructions (R113 to R126, R164 to R166): the shape of an instruction that
writes one register and of one that writes a register and then the flag, proved once, and the values they write.
-/

namespace Sys2Proof.Machine

/-! ### The two shapes -/

section
variable {i : Instr} {s : State} {x : RegIx}

/-- An instruction that writes one register leaves the value in it and changes nothing else. -/
theorem exists_next_setReg {v : Byte} (h : exec i s = .next (s.setReg x v)) :
    ∃ t, exec i s = .next t ∧ t.reg x = v ∧ (∀ z, z ≠ x → t.reg z = s.reg z) ∧ t = { s with V := t.V } ∧
      ∀ a, t.readByte a = s.readByte a :=
  ⟨_, h, s.reg_setReg_same x v, fun _ other => s.reg_setReg_other other v, rfl, fun _ => rfl⟩

/-- An instruction that writes a register and then the flag leaves the flag in VF and the value in the register unless
that is VF, and changes nothing else (R21). -/
theorem exists_next_setRegFlag {rc : Byte × Byte} (h : exec i s = .next (s.setRegFlag x rc)) :
    ∃ t, exec i s = .next t ∧ t.reg VF = rc.2 ∧ (x ≠ VF → t.reg x = rc.1) ∧
      (∀ z, z ≠ x → z ≠ VF → t.reg z = s.reg z) ∧ t = { s with V := t.V } ∧ ∀ a, t.readByte a = s.readByte a :=
  ⟨_, h, s.reg_setRegFlag_VF x rc, fun dest => s.reg_setRegFlag_dest dest rc,
    fun _ other notFlag => s.reg_setRegFlag_other other notFlag rc, rfl, fun _ => rfl⟩

end

/-! ### Loads and logic -/

/-- Settles O29: the five meanings write the one register. -/
theorem loadsAndLogicWriteDestinationOnly : Obligations.LoadsAndLogicWriteDestinationOnly := by
  intro x y kk s p mem
  simp only [List.mem_cons, List.not_mem_nil, or_false] at mem
  obtain rfl | rfl | rfl | rfl | rfl := mem
  all_goals exact exists_next_setReg rfl

/-- Settles O36: one register takes the conjunction, bit by bit. -/
theorem rndMasksRandomByte : Obligations.RndMasksRandomByte := by
  intro x kk s
  obtain ⟨t, h, dest, frame⟩ := exists_next_setReg (i := .rnd x kk) (s := s) rfl
  refine ⟨t, h, fun k _ => ?_, frame⟩
  rw [dest, BitVec.getLsbD_and]

/-- Settles O40: one register, one timer, the other timer. -/
theorem timerInstructionsMoveByte : Obligations.TimerInstructionsMoveByte :=
  fun _ _ => ⟨exists_next_setReg rfl, rfl, rfl⟩

/-! ### Arithmetic -/

/-- Settles O30: under the parameter the instruction writes the flag last, and else one register. -/
theorem addByteResult : Obligations.AddByteResult := by
  intro x kk s
  cases flag : s.params.addiWritesVf with
  | true =>
    have meaning : exec (.addByte x kk) s = .next (s.setRegFlag x (add8 (s.reg x) kk)) := if_pos flag
    obtain ⟨t, h, carry, dest, others, frame⟩ := exists_next_setRegFlag meaning
    refine ⟨t, h, fun ordinary => ?_, fun _ => ?_, fun z other notFlag => ?_, frame⟩
    · rw [dest (by simpa using ordinary), add8_fst_toNat]
    · rw [carry, add8_snd_toNat]
    · exact others z other (by simpa using notFlag)
  | false =>
    have meaning : exec (.addByte x kk) s = .next (s.setReg x (add8 (s.reg x) kk).1) := if_neg (by simp [flag])
    obtain ⟨t, h, dest, others, frame⟩ := exists_next_setReg meaning
    refine ⟨t, h, fun _ => ?_, fun on => absurd on (by decide), fun z other _ => others z other, frame⟩
    rw [dest, add8_fst_toNat]

/-- Settles O31: the register takes the sum and VF the carry of the 8-bit law. -/
theorem addRegResult : Obligations.AddRegResult := by
  intro x y s
  obtain ⟨t, h, carry, dest, frame⟩ := exists_next_setRegFlag (i := .addReg x y) (s := s) rfl
  refine ⟨t, h, ?_, fun ordinary => ?_, frame⟩
  · rw [carry, add8_snd_toNat]
  · rw [dest ordinary, add8_fst_toNat]

/-- The shape of the two subtractions, for either order of the operands. -/
theorem exists_next_sub8 {i : Instr} {s : State} {x : RegIx} {a b : Byte}
    (h : exec i s = .next (s.setRegFlag x (sub8 a b))) :
    ∃ t, exec i s = .next t ∧ (t.reg VF).toNat = (if a.toNat ≥ b.toNat then 1 else 0) ∧
      (x ≠ VF → ((t.reg x).toNat : Int) = ((a.toNat : Int) - b.toNat) % 256) ∧
      (∀ z, z ≠ x → z ≠ VF → t.reg z = s.reg z) ∧ t = { s with V := t.V } ∧ ∀ a, t.readByte a = s.readByte a := by
  obtain ⟨t, ht, noBorrow, dest, frame⟩ := exists_next_setRegFlag h
  refine ⟨t, ht, ?_, fun ordinary => ?_, frame⟩
  · rw [noBorrow, sub8_snd_toNat]
  · rw [dest ordinary, sub8_fst_toNat_eq_int_emod]

/-- Settles O32: the two meanings are `sub8` with the operands in either order. -/
theorem subtractResults : Obligations.SubtractResults := by
  intro x y s p mem
  simp only [List.mem_cons, List.not_mem_nil, or_false] at mem
  obtain rfl | rfl := mem
  all_goals exact exists_next_sub8 rfl

/-- Settles O33: the two shifts as numbers. -/
theorem shiftResults : Obligations.ShiftResults := by
  intro x y s p mem
  simp only [List.mem_cons, List.not_mem_nil, or_false] at mem
  obtain rfl | rfl := mem
  · obtain ⟨t, h, dest, frame⟩ := exists_next_setReg (i := .shr x y) (s := s) rfl
    refine ⟨t, h, ?_, frame⟩
    rw [dest, BitVec.toNat_ushiftRight, Nat.shiftRight_one]
  · obtain ⟨t, h, dest, frame⟩ := exists_next_setReg (i := .shl x y) (s := s) rfl
    refine ⟨t, h, ?_, frame⟩
    rw [dest, BitVec.toNat_shiftLeft, Nat.shiftLeft_eq]

/-! ### The index register -/

/-- Settles O34: the zero-extended operand is `nnn` as a number. -/
theorem ldISetsIndex : Obligations.LdISetsIndex :=
  fun nnn _ => ⟨_, rfl, addrOperand_toNat nnn, rfl, fun _ => rfl⟩

/-- Settles O35: `I` takes the sum of the old `I` and the old register, and then VF the carry. -/
theorem addIResult : Obligations.AddIResult := by
  intro x s
  refine ⟨_, rfl, ?sum, ?carry, fun z other => State.reg_setFlag_other _ other _, rfl, fun _ => rfl⟩
  case sum =>
    change (s.I + s.regAsWord x).toNat = _
    rw [BitVec.toNat_add, State.regAsWord_toNat]
  case carry =>
    rw [State.reg_setFlag_VF]
    simp [add16]

end Sys2Proof.Machine
end

