-- ==== Sys2Proof/Proofs/Keyboard.lean ====
section
/-!
The key instructions (R160 to R163): the skips on one bit of the sample, and the wait for a key that goes down.
-/

namespace Sys2Proof.Machine

theorem State.skipIf_not (s : State) (c : Bool) : s.skipIf (!c) = { s with pc := if c then s.pc else s.pc + 2 } := by
  cases c <;> rfl

/-- Settles O37: an index up to 15 is tested, a greater one is due the fault. -/
theorem keySkipsTestSampleOrFault : Obligations.KeySkipsTestSampleOrFault := by
  intro x s
  refine ⟨fun index => ⟨?_, ?_⟩, fun noIndex => ⟨?_, ?_⟩⟩
  · exact exec_of_notDue (by rw [faultDue_encode_skp, if_neg (not_lt.mpr index)])
  · rw [exec_of_notDue (by rw [faultDue_encode_sknp, if_neg (not_lt.mpr index)])]
    exact congrArg _ (s.skipIf_not _)
  · exact exec_of_faultDue rfl (by rw [faultDue_encode_skp, if_pos noIndex, State.regAsWord])
  · exact exec_of_faultDue rfl (by rw [faultDue_encode_sknp, if_pos noIndex, State.regAsWord])

/-! ### The key wait -/

theorem State.newlyDown_getLsbD (s : State) {k : Nat} (hk : k < 16) :
    s.newlyDown.getLsbD k = (s.K.getLsbD k && !s.kprev.getLsbD k) := by
  simp [State.newlyDown, hk]

/-- The search answers the first set bit (R163). -/
theorem lowestKey_toNat {m : Word} {k : Fin 16} (down : m.getLsbD k.val = true)
    (lowest : ∀ j < k.val, m.getLsbD j = false) : (lowestKey m).toNat = k.val := by
  have found : (List.range 16).find? (fun i => m.getLsbD i) = some k.val :=
    List.find?_range_eq_some.mpr ⟨down, List.mem_range.mpr k.isLt, fun j hj => by simp [lowest j hj]⟩
  rw [lowestKey, found, Option.getD_some, BitVec.toNat_ofNat]
  omega

/-- Settles O38: the mask of the keys gone down has bit `k` and no bit below it. -/
theorem keyWaitTakesLowestNewKey : Obligations.KeyWaitTakesLowestNewKey := by
  intro x s k down up lowest
  have newly : s.newlyDown.getLsbD k.val = true := by simp [s.newlyDown_getLsbD k.isLt, down, up]
  have none_below : ∀ j < k.val, s.newlyDown.getLsbD j = false := by
    intro j hj
    have held := lowest ⟨j, by omega⟩ hj
    rw [s.newlyDown_getLsbD (by omega)]
    cases now : s.K.getLsbD j with
    | false => rfl
    | true => simp [held now]
  have pressed : s.newlyDown ≠ 0 := fun empty => by simp [empty] at newly
  have meaning : exec (.ldVxK x) s = .next (s.setReg x (lowestKey s.newlyDown)) := by
    simp only [exec, execLdVxK, if_pos pressed]
    rfl
  obtain ⟨t, h, dest, frame⟩ := exists_next_setReg meaning
  exact ⟨t, h, by rw [dest, lowestKey_toNat newly none_below], frame⟩

/-- Settles O39: the mask of the keys gone down is empty, and the retraction undoes the advance. -/
theorem keyWaitStallsWithoutNewKey : Obligations.KeyWaitStallsWithoutNewKey := by
  intro x s held
  have none_down : s.newlyDown = 0 := by
    refine BitVec.eq_of_getLsbD_eq fun k hk => ?_
    rw [s.newlyDown_getLsbD hk]
    cases now : s.K.getLsbD k with
    | false => simp
    | true => simp [held ⟨k, hk⟩ now]
  have stalled : ∀ u : State, u.newlyDown = 0 → effect (.ldVxK x) u = { u with pc := u.pc - 2 } := fun u empty => by
    simp only [effect, empty, ne_eq, not_true_eq_false, if_false]
  have noFault : s.faultDue (encode (.ldVxK x)) = none := by rw [State.faultDue, decodeWord_encode rfl]
  refine ⟨(exec_of_notDue noFault).trans (congrArg _ (stalled s none_down)), fun running low decoded => ?_⟩
  rw [step_of_notDue running low decoded (by rw [State.faultDue, decoded]), stalled s.advance none_down]
  simp only [State.advance, pc_advance_retract]

end Sys2Proof.Machine
end

