-- ==== Sys2Proof/Proofs/MemoryInstructions.lean ====
section
/-!
The instructions that access memory at `I` behind the range test, and the clear of the display (R180, R181, R202 to
R204).
-/

namespace Sys2Proof.Machine

/-- Settles O41: the meaning writes the cleared buffer, whose bytes and pixels are zero. -/
theorem clsClearsEveryPixel : Obligations.ClsClearsEveryPixel :=
  fun _ _ => ⟨_, rfl, Frame.pixel_clear, Frame.byte_clear, rfl, rfl, fun _ => rfl⟩

/-- Settles O42: the range test of the statement is that of the fault due, and a start column and row are determined by
their values. -/
theorem drwDrawsOrFaults : Obligations.DrwDrawsOrFaults := by
  intro x y n s
  refine ⟨fun inRange => ?drawn, fun nonempty outOfRange => ?fault⟩
  case fault => exact exec_of_faultDue rfl (by rw [faultDue_encode_drw, if_pos ⟨nonempty, by omega⟩])
  case drawn =>
    have notDue : s.faultDue (encode (.drw x y n)) = none := by rw [faultDue_encode_drw, if_neg (by omega)]
    refine ⟨_, exec_of_notDue notDue, fun x0 y0 column row => ?_,
      fun z other => State.reg_setFlag_other _ other _, rfl, rfl, fun _ => rfl⟩
    obtain rfl : x0 = startColumn (s.reg x) := Fin.ext column
    obtain rfl : y0 = startRow (s.reg y) := Fin.ext row
    exact ⟨rfl, State.reg_setFlag_VF _ _⟩

/-! ### The two stores -/

/-- A store leaves its bytes in memory, in a canonical one. -/
theorem State.readByte_storeBytes_inside {s : State} (canonical : s.MemCanonical) {bs : List Byte} {a : Nat}
    (inMemory : a + bs.length ≤ 4096) {k : Nat} (hk : k < bs.length) :
    (s.storeBytes a bs).readByte (a + k) = bs[k] :=
  Memory.read_writeBlock_inside bs a k hk canonical inMemory

theorem State.readByte_storeBytes_outside (s : State) {bs : List Byte} {a b : Nat}
    (outside : b < a ∨ a + bs.length ≤ b) : (s.storeBytes a bs).readByte b = s.readByte b :=
  Memory.read_writeBlock_outside bs s.mem a outside

theorem decodeWord_ldB (x : RegIx) : decodeWord (0xF#4 ++ x ++ 0x33#8) = .ok (.ldB x) :=
  decodeWord_encode (i := .ldB x) rfl

theorem effect_ldB (x : RegIx) (s : State) : effect (.ldB x) s = s.storeBytes s.I.toNat (bcdDigits (s.reg x)) := rfl

/-- A decimal digit of a byte is no more than the byte, so it fits. -/
theorem toNat_ofNat_of_le {v : Byte} {d : Nat} (h : d ≤ v.toNat) : (BitVec.ofNat 8 d).toNat = d :=
  (BitVec.toNat_ofNat d 8).trans (Nat.mod_eq_of_lt (h.trans_lt v.isLt))

/-- Settles O48: the three digits are stored at `I`, or the fault is due. -/
theorem ldBStoresDigitsOrFaults : Obligations.LdBStoresDigitsOrFaults := by
  intro x
  refine ⟨decodeWord_ldB x, fun s => ⟨fun inRange => ?stored, fun outOfRange => ?fault⟩⟩
  case fault => exact exec_of_faultDue rfl (by rw [faultDue_encode_ldB, if_pos (by omega)])
  case stored =>
    have notDue : s.faultDue (encode (.ldB x)) = none := by rw [faultDue_encode_ldB, if_neg (by omega)]
    have length : (bcdDigits (s.reg x)).length = 3 := rfl
    refine ⟨_, exec_of_notDue notDue, fun canonical => ?digits, fun a outside => ?others, rfl⟩
    case others => exact s.readByte_storeBytes_outside (by rwa [length])
    case digits =>
      have digit := fun k hk =>
        s.readByte_storeBytes_inside canonical (bs := bcdDigits (s.reg x)) (a := s.I.toNat) (by omega) (k := k) hk
      rw [effect_ldB]
      refine ⟨?_, ?_, ?_⟩
      · exact (congrArg _ (digit 0 (by omega))).trans (toNat_ofNat_of_le (v := s.reg x) (by omega))
      · exact (congrArg _ (digit 1 (by omega))).trans (toNat_ofNat_of_le (v := s.reg x) (by omega))
      · exact (congrArg _ (digit 2 (by omega))).trans (toNat_ofNat_of_le (v := s.reg x) (by omega))

theorem decodeWord_storeRegs (x : RegIx) : decodeWord (0xF#4 ++ x ++ 0x55#8) = .ok (.storeRegs x) :=
  decodeWord_encode (i := .storeRegs x) rfl

/-- Settles O49: the registers V0 to Vx are stored at `I`, or the fault is due. -/
theorem storeRegsStoresPrefixOrFaults : Obligations.StoreRegsStoresPrefixOrFaults := by
  intro x
  refine ⟨decodeWord_storeRegs x, fun s => ⟨fun inRange => ?stored, fun outOfRange => ?fault⟩⟩
  case fault => exact exec_of_faultDue rfl (by rw [faultDue_encode_storeRegs, if_pos (by omega)])
  case stored =>
    have notDue : s.faultDue (encode (.storeRegs x)) = none := by rw [faultDue_encode_storeRegs, if_neg (by omega)]
    have length := s.regBlock_length (x.toNat + 1)
    refine ⟨_, exec_of_notDue notDue, fun canonical i le => ?registers, fun a outside => ?others, rfl⟩
    case others => exact s.readByte_storeBytes_outside (by rw [length]; exact outside)
    case registers =>
      have le : i.toNat ≤ x.toNat := le
      refine (s.readByte_storeBytes_inside canonical (a := s.I.toNat) (by omega) (k := i.toNat) (by omega)).trans ?_
      rw [State.regBlock_getElem, BitVec.ofNat_toNat, BitVec.setWidth_eq]

/-! ### The block load -/

theorem decodeWord_loadRegs (x : RegIx) : decodeWord (0xF#4 ++ x ++ 0x65#8) = .ok (.loadRegs x) :=
  decodeWord_encode (i := .loadRegs x) rfl

/-- A register after a block load: the byte at its place from `I`, up to `Vx`, and the old value above. -/
theorem reg_effect_loadRegs (x i : RegIx) (s : State) :
    (effect (.loadRegs x) s).reg i = if i ≤ x then s.readByte (s.I.toNat + i.toNat) else s.reg i := by
  have written := State.reg_setRegBlock i (s.mem.readBlock (s.ea 0) (x.toNat + 1)) s 0
    (by rw [Memory.readBlock_length]; have := x.isLt; omega)
  refine (State.reg_of_V rfl i).trans (written.trans ?_)
  by_cases le : i ≤ x
  · have inside : 0 ≤ i.toNat ∧ i.toNat < 0 + (s.mem.readBlock (s.ea 0) (x.toNat + 1)).length := by
      have : i.toNat ≤ x.toNat := le
      rw [Memory.readBlock_length]
      omega
    rw [if_pos le, dif_pos inside, Memory.readBlock_getElem]
    rfl
  · rw [if_neg le, dif_neg]
    have : x.toNat < i.toNat := BitVec.not_le.mp le
    rw [Memory.readBlock_length]
    omega

/-- Settles O50: the registers V0 to Vx are loaded from `I`, or the fault is due. -/
theorem loadRegsLoadsPrefixOrFaults : Obligations.LoadRegsLoadsPrefixOrFaults := by
  intro x
  refine ⟨decodeWord_loadRegs x, fun s => ⟨fun inRange => ?loaded, fun outOfRange => ?fault⟩⟩
  case fault => exact exec_of_faultDue rfl (by rw [faultDue_encode_loadRegs, if_pos outOfRange])
  case loaded =>
    have notDue : s.faultDue (encode (.loadRegs x)) = none := by rw [faultDue_encode_loadRegs, if_neg (by omega)]
    refine ⟨_, exec_of_notDue notDue, fun i le => ?_, fun i above => ?_, rfl, fun _ => rfl⟩
    · rw [reg_effect_loadRegs, if_pos le]
    · rw [reg_effect_loadRegs, if_neg (BitVec.not_le.mpr above)]

end Sys2Proof.Machine
end

