-- ==== Sys2Proof/Proofs/Reset.lean ====
section
/-!
The reset with a ROM (R36, R250 to R252): the memory it leaves, and the launches it refuses.
-/

namespace Sys2Proof.Machine

/-! ### The font as a block of bytes -/

/-- Entry `j` of piece `d`, where every piece has length `n`. -/
theorem getElem?_flatten_of_length {α : Type} {n j : Nat} (hj : j < n) :
    ∀ (L : List (List α)) (d : Nat), (∀ l ∈ L, l.length = n) → L.flatten[n * d + j]? = L[d]?.bind (·[j]?)
  | [], d, _ => by simp
  | l :: L, 0, len => by
    have hl : l.length = n := len l List.mem_cons_self
    rw [List.flatten_cons, Nat.mul_zero, Nat.zero_add, List.getElem?_append_left (hl ▸ hj)]
    rfl
  | l :: L, d + 1, len => by
    have hl : l.length = n := len l List.mem_cons_self
    rw [List.flatten_cons, List.getElem?_append_right (by rw [hl, Nat.mul_succ]; omega), hl, Nat.mul_succ,
      show n * d + n + j - n = n * d + j by omega,
      getElem?_flatten_of_length hj L d fun m hm => len m (List.mem_cons_of_mem l hm), List.getElem?_cons_succ]

/-- The sixteen glyphs one after the other, as reset stores them (R29). -/
def fontBytes (font : Font) : List Byte := (font.toList.map Vector.toList).flatten

@[simp] theorem fontBytes_length (font : Font) : (fontBytes font).length = 80 := by
  simp [fontBytes, Function.comp_def]

theorem fontBytes_getElem? (font : Font) (d : Fin 16) (j : Fin 5) :
    (fontBytes font)[5 * d.val + j.val]? = some font[d][j] := by
  rw [fontBytes, getElem?_flatten_of_length j.isLt _ _ (by simp)]
  simp

/-! ### The memory reset leaves -/

section
variable (font : Font) (rom : List Byte)

theorem resetMemory_eq : resetMemory font rom = (Memory.writeBlock [] 0 (fontBytes font)).writeBlock 0x200 rom := rfl

theorem wf_fontMemory : (Memory.writeBlock [] 0 (fontBytes font)).wf := Memory.wf_writeBlock _ 0 Memory.wf_nil

theorem resetMemory_wf : (resetMemory font rom).wf := Memory.wf_writeBlock _ 0x200 (wf_fontMemory font)

theorem resetMemory_read_font (d : Fin 16) (j : Fin 5) :
    (resetMemory font rom).read (5 * d.val + j.val) = font[d][j] := by
  have glyph := fontBytes_getElem? font d j
  have below : 5 * d.val + j.val < (fontBytes font).length := by rw [fontBytes_length]; omega
  have stored := Memory.read_writeBlock_inside (fontBytes font) (m := []) 0 _ below Memory.wf_nil
    (by rw [fontBytes_length]; decide)
  rw [Nat.zero_add] at stored
  rw [resetMemory_eq, Memory.read_writeBlock_outside rom _ _ (by omega), stored]
  exact Option.some.inj ((List.getElem?_eq_getElem below).symm.trans glyph)

theorem resetMemory_read_rom (length : rom.length ≤ 3584) (i : Nat) (h : i < rom.length) :
    (resetMemory font rom).read (0x200 + i) = rom[i] :=
  Memory.read_writeBlock_inside rom 0x200 i h (wf_fontMemory font) (by rw [memSize]; omega)

/-- Outside the font and the ROM nothing is written, and an unlisted cell there reads as zero (R27). -/
theorem resetMemory_read_zero {a : Nat} (font_below : 80 ≤ a) (outside : a < 0x200 ∨ 0x200 + rom.length ≤ a) :
    (resetMemory font rom).read a = 0 := by
  have aboveFont : a < 0 ∨ 0 + (fontBytes font).length ≤ a := by rw [fontBytes_length]; omega
  rw [resetMemory_eq, Memory.read_writeBlock_outside rom _ _ outside, Memory.read_writeBlock_outside _ _ _ aboveFont,
    Memory.read, Memory.unlisted, dif_neg (by omega)]

end

/-! ### Launching -/

theorem launch_eq (s : State) {p : Params} (font : Font) {rom : List Byte} (length : rom.length ≤ 3584)
    (rate : 60 ≤ p.cycleRate) :
    s.launch p font rom =
      .next { State.reset with mem := resetMemory font rom, params := p, inputs := s.inputs, served := s.served } := by
  have fits : ¬ Config.maxRomLength < rom.length := not_lt.mpr length
  have admitted : ¬ p.cycleRate < Config.minCycleRate := not_lt.mpr rate
  rw [State.launch, if_neg fits, if_neg admitted]

theorem reset_reg (x : RegIx) : State.reset.reg x = 0 := by
  simp [State.reg, State.reset]

theorem reset_stack (k : Fin 16) : State.reset.stack[k] = 0 := by
  simp [State.reset]

/-- Settles O57: the fields are those of the reset state, and memory is the font and then the ROM over zeros. -/
theorem launchLeavesResetState : Obligations.LaunchLeavesResetState := by
  intro s p font rom length rate
  refine ⟨_, launch_eq s font length rate, reset_reg, rfl, rfl, rfl, reset_stack, rfl, rfl, Frame.byte_clear, rfl, rfl,
    rfl, rfl, rfl, rfl, rfl, rfl, rfl, resetMemory_read_font font rom, fun a low high => ?between,
    resetMemory_read_rom font rom length, fun a low _ => ?above, resetMemory_wf font rom⟩
  case between => exact resetMemory_read_zero font rom low (.inl high)
  case above => exact resetMemory_read_zero font rom (by omega) (.inr low)

/-- Settles O58: the two tests, in their order. -/
theorem launchRefusesBadParameters : Obligations.LaunchRefusesBadParameters := by
  intro s p font rom
  refine ⟨fun tooLong => if_pos tooLong, fun length low => ?_⟩
  have fits : ¬ Config.maxRomLength < rom.length := not_lt.mpr length
  rw [State.launch, if_neg fits]
  exact if_pos low

/-- Settles O59: writing the default font leaves no cell listed, since each reads as it does unlisted. -/
theorem resetIsDefaultLaunch : Obligations.ResetIsDefaultLaunch := by
  have noCell : resetMemory Config.font [] = [] := by decide
  rw [Obligations.ResetIsDefaultLaunch, launch_eq _ _ (by decide) (by decide), noCell]
  rfl

end Sys2Proof.Machine
end
